-- ==== Sys2Proof/Word.lean ====
section
/-! DEFINITION. The plain bit vectors of SHA256-CORE (spec/00_scope.md R8, R9). Byte order and every
bit-field helper stand under Sys2Proof/Machine/ and in Sys2Proof/Decode.lean. -/

namespace Sys2Proof

/-- A 32-bit word of the core: a state word, a schedule word, a command word (R8 P1, R9). -/
abbrev Word := BitVec 32

/-- A byte of host memory or of a block (R9). -/
abbrev Byte := BitVec 8

/-- An `AW`-bit value (an address, a length, `FARG`), held zero-extended in the widest width the
spec allows, 64 bits (R8 P6 and P7: `16 ≤ AW ≤ 64`).  That it fits in `AW` bits is the predicate
`fits` of Sys2Proof/WellFormed.lean. -/
abbrev Addr := BitVec 64

/-- The 8-bit context index of a command word (R72). -/
abbrev CtxIdx := BitVec 8

/-- One 64-byte block, and the type of `BUF` (R8 P3, R22). -/
abbrev Block := Vector Byte 64

/-- The eight state words `H[0..7]` (R8 P2, R21). -/
abbrev HashWords := Vector Word 8

end Sys2Proof
end

