-- ==== Sys2Proof/Machine/Bytes.lean ====
section
/-! DEFINITION. Byte order: big-endian at every point (spec/00_scope.md R10, spec/20_memory.md R52). -/

namespace Sys2Proof.Machine

/-- `BE32(b0, b1, b2, b3)`, first byte most significant (R10). -/
def be32 (b0 b1 b2 b3 : Byte) : Word := b0 ++ b1 ++ b2 ++ b3

/-- `BE32bytes(w)` (R10). -/
def be32Bytes (w : Word) : List Byte :=
  [w.extractLsb' 24 8, w.extractLsb' 16 8, w.extractLsb' 8 8, w.extractLsb' 0 8]

/-- `BE64bytes(v)`, most significant byte first (R10). -/
def be64Bytes (v : BitVec 64) : List Byte :=
  be32Bytes (v.extractLsb' 32 32) ++ be32Bytes (v.extractLsb' 0 32)

/-- `BE32bytes(H[0]) ‖ ... ‖ BE32bytes(H[7])` (R52, R154). -/
def digestBytes (h : HashWords) : List Byte := h.toList.flatMap be32Bytes

end Sys2Proof.Machine
end

