-- ==== Sys2Proof/Machine/Compressor.lean ====
section
/-! DEFINITION. The Block Compressor, the internal operation COMPRESS (spec/41_compressor.md R100 to
R116).  It has no encoding (R78); UPDATE, FINAL, BLOCK and BLOCK_CTX invoke it. -/

namespace Sys2Proof.Machine

/-! ## Constants -/

/-- `IV[0..7]` (R102). -/
def initialHash : HashWords :=
  #v[0x6a09e667, 0xbb67ae85, 0x3c6ef372, 0xa54ff53a, 0x510e527f, 0x9b05688c, 0x1f83d9ab, 0x5be0cd19]

/-- `K[0..7]` (R103). -/
def roundConstants0 : List Word :=
  [0x428a2f98, 0x71374491, 0xb5c0fbcf, 0xe9b5dba5,
   0x3956c25b, 0x59f111f1, 0x923f82a4, 0xab1c5ed5]

/-- `K[8..15]` (R103). -/
def roundConstants1 : List Word :=
  [0xd807aa98, 0x12835b01, 0x243185be, 0x550c7dc3,
   0x72be5d74, 0x80deb1fe, 0x9bdc06a7, 0xc19bf174]

/-- `K[16..23]` (R103). -/
def roundConstants2 : List Word :=
  [0xe49b69c1, 0xefbe4786, 0x0fc19dc6, 0x240ca1cc,
   0x2de92c6f, 0x4a7484aa, 0x5cb0a9dc, 0x76f988da]

/-- `K[24..31]` (R103). -/
def roundConstants3 : List Word :=
  [0x983e5152, 0xa831c66d, 0xb00327c8, 0xbf597fc7,
   0xc6e00bf3, 0xd5a79147, 0x06ca6351, 0x14292967]

/-- `K[32..39]` (R103). -/
def roundConstants4 : List Word :=
  [0x27b70a85, 0x2e1b2138, 0x4d2c6dfc, 0x53380d13,
   0x650a7354, 0x766a0abb, 0x81c2c92e, 0x92722c85]

/-- `K[40..47]` (R103). -/
def roundConstants5 : List Word :=
  [0xa2bfe8a1, 0xa81a664b, 0xc24b8b70, 0xc76c51a3,
   0xd192e819, 0xd6990624, 0xf40e3585, 0x106aa070]

/-- `K[48..55]` (R103). -/
def roundConstants6 : List Word :=
  [0x19a4c116, 0x1e376c08, 0x2748774c, 0x34b0bcb5,
   0x391c0cb3, 0x4ed8aa4a, 0x5b9cca4f, 0x682e6ff3]

/-- `K[56..63]` (R103). -/
def roundConstants7 : List Word :=
  [0x748f82ee, 0x78a5636f, 0x84c87814, 0x8cc70208,
   0x90befffa, 0xa4506ceb, 0xbef9a3f7, 0xc67178f2]

/-- `K[0..63]` (R103). -/
def roundConstants : List Word :=
  roundConstants0 ++ roundConstants1 ++ roundConstants2 ++ roundConstants3 ++
  roundConstants4 ++ roundConstants5 ++ roundConstants6 ++ roundConstants7

/-! ## Primitive functions -/

/-- `ROTR(x, n)`, for `1 ≤ n ≤ 31` (R104). -/
def rotr (x : Word) (n : Nat) : Word := (x >>> n) ||| (x <<< (32 - n))

/-- `SHR(x, n)`, for `1 ≤ n ≤ 31` (R104). -/
def shr (x : Word) (n : Nat) : Word := x >>> n

/-- `Ch(x, y, z)` (R105). -/
def ch (x y z : Word) : Word := (x &&& y) ^^^ (~~~x &&& z)

/-- `Maj(x, y, z)` (R106). -/
def maj (x y z : Word) : Word := (x &&& y) ^^^ (x &&& z) ^^^ (y &&& z)

/-- `Σ0(x)` (R107). -/
def bigSigma0 (x : Word) : Word := rotr x 2 ^^^ rotr x 13 ^^^ rotr x 22

/-- `Σ1(x)` (R108). -/
def bigSigma1 (x : Word) : Word := rotr x 6 ^^^ rotr x 11 ^^^ rotr x 25

/-- `σ0(x)` (R109). -/
def smallSigma0 (x : Word) : Word := rotr x 7 ^^^ rotr x 18 ^^^ shr x 3

/-- `σ1(x)` (R110). -/
def smallSigma1 (x : Word) : Word := rotr x 17 ^^^ rotr x 19 ^^^ shr x 10

/-! ## The steps -/

/-- `W[t]` of the block, for `t` in `0..15` (R111). -/
def blockWord (blk : Block) (t : Fin 16) : Word :=
  be32 blk[4 * t.val] blk[4 * t.val + 1] blk[4 * t.val + 2] blk[4 * t.val + 3]

/-- `W[0..15]` (R111). -/
def blockWords (blk : Block) : List Word := List.ofFn (blockWord blk)

/-- Append `W[t]` to `W[0..t-1]`, for `t ≥ 16` (R112). -/
def scheduleNext (w : List Word) : List Word :=
  w ++ [smallSigma1 (w.getD (w.length - 2) 0) + w.getD (w.length - 7) 0 +
        smallSigma0 (w.getD (w.length - 15) 0) + w.getD (w.length - 16) 0]

/-- Append the next `n` schedule words (R112). -/
def scheduleExtend : Nat → List Word → List Word
  | 0, w => w
  | n + 1, w => scheduleExtend n (scheduleNext w)

/-- The message schedule `W[0..63]` (R111, R112). -/
def schedule (blk : Block) : List Word := scheduleExtend 48 (blockWords blk)

/-- The working variables `a..h` (R29, R113). -/
structure Work where
  a : Word
  b : Word
  c : Word
  d : Word
  e : Word
  f : Word
  g : Word
  h : Word
deriving DecidableEq, Repr

/-- The working variables before the first round (R113). -/
def workInit (h : HashWords) : Work := ⟨h[0], h[1], h[2], h[3], h[4], h[5], h[6], h[7]⟩

/-- `T1` of a round with constant `k` and schedule word `w` (R113). -/
def roundT1 (v : Work) (k w : Word) : Word := v.h + bigSigma1 v.e + ch v.e v.f v.g + k + w

/-- `T2` of a round (R113). -/
def roundT2 (v : Work) : Word := bigSigma0 v.a + maj v.a v.b v.c

/-- One round; every right-hand side reads the values from before it (R113). -/
def roundStep (v : Work) (kw : Word × Word) : Work :=
  ⟨roundT1 v kw.1 kw.2 + roundT2 v, v.a, v.b, v.c, v.d + roundT1 v kw.1 kw.2, v.e, v.f, v.g⟩

/-- The 64 rounds, round `t` with `K[t]` and `W[t]` (R113). -/
def rounds (h : HashWords) (w : List Word) : Work :=
  (roundConstants.zip w).foldl roundStep (workInit h)

/-- The final addition (R114). -/
def addWork (h : HashWords) (v : Work) : HashWords :=
  #v[h[0] + v.a, h[1] + v.b, h[2] + v.c, h[3] + v.d, h[4] + v.e, h[5] + v.f, h[6] + v.g, h[7] + v.h]

/-- `Compress(H, blk)` (R100, R115). -/
def compress (h : HashWords) (blk : Block) : HashWords := addWork h (rounds h (schedule blk))

end Sys2Proof.Machine
end

