-- ==== Sys2Proof/Config.lean ====
section
/-! DEFINITION. What a platform fixes (spec/00_scope.md R8), and the free values (the draws of
spec/93_implementation_defined.md).  The parameters a command's outcome depends on are the plain
record `Params`, carried in the state as a field that no step changes (notes/assumptions/1.md), so
that a theorem over all states is a theorem over all parameters. -/

namespace Sys2Proof

/-- The lifecycle phase of a context (R26).  The encoding 3 never occurs and is excluded by type. -/
inductive Phase where
  | uninitialized
  | ready
  | finalized
deriving DecidableEq, Repr, Inhabited

/-- The `kind` argument of `MemValid` (R8 P11). -/
inductive AccessKind where
  | read
  | write
deriving DecidableEq, Repr, Inhabited

/-- Parameter P9: the physical layout of a context.  No rule depends on it (R36). -/
inductive Layout where
  | compact
  | oversized
deriving DecidableEq, Repr, Inhabited

/-- One window of a platform's memory map: `size` bytes from `base`, with what it admits. -/
structure Window where
  base : Nat
  size : Nat
  canRead : Bool
  canWrite : Bool
deriving DecidableEq, Repr, Inhabited

/-- Parameter P11, the platform predicate `MemValid(addr, n, kind)`, as plain data.
`everywhere` is `MV_A` and `windows` covers `MV_B` of spec/95_test_vectors.md; `platform k` is an
arbitrary predicate, the opaque `Config.platformMemValid k`, so nothing the spec allows is shut out
(notes/assumptions/2.md). -/
inductive Admission where
  | everywhere
  | windows (ws : List Window)
  | platform (k : Nat)
deriving DecidableEq, Repr, Inhabited

/-- The parameters a platform fixes before the first command (R8, R232).  `NCTX` (P5) is the length
of the state's list of contexts. -/
structure Params where
  /-- P6, the address width in bits, `16 ≤ aw ≤ 64`. -/
  aw : Nat
  /-- P8, the integrity tag value INIT stores. -/
  shaMagic : Word
  /-- P9, without effect on any rule. -/
  layout : Layout
  /-- P10, without effect on any rule. -/
  ctxMinSize : Nat
  /-- P11. -/
  memValid : Admission
deriving DecidableEq, Repr, Inhabited

namespace Config

/-- P11 for a platform not given as data: any predicate at all.  No body: nothing can be proved
of its values. -/
opaque platformMemValid : Nat → Nat → Nat → AccessKind → Bool

/-- P8 at reset: R8 leaves the value open. -/
opaque shaMagic : Word

/-- P9 at reset: R8 leaves the choice open. -/
opaque layout : Layout

/-- P10 at reset: R8 leaves the size open. -/
opaque ctxMinSize : Nat

/-! The draws (R22, R28, R35, R37, R155; U4, U15, U16): free values, one family per field of a
context, each applied to the state's draw counter and, for the registers of several elements, to the
element's number. -/

/-- An unspecified `H[j]`. -/
opaque drawHash : Nat → Nat → Word

/-- An unspecified `BUF[k]`. -/
opaque drawByte : Nat → Nat → Byte

/-- An unspecified `BUFCNT`. -/
opaque drawCount : Nat → BitVec 7

/-- An unspecified `BITCNT`. -/
opaque drawBits : Nat → BitVec 64

/-- An unspecified `TAG`. -/
opaque drawTag : Nat → Word

/-- An unspecified `PHASE`, for the scratch context after a BLOCK only (R35, R171). -/
opaque drawPhase : Nat → Phase

end Config
end Sys2Proof
end

