-- ==== Sys2Proof/Syntax.lean ====
section
/-! DEFINITION. The command record and the five commands (spec/30_encoding.md R70, R73, R80), one
constructor per row of spec/opcode_table.json. -/

namespace Sys2Proof

/-- The record a host issues: the command word and three operand fields (R70). -/
structure Record where
  /-- `CMD`, the command word. -/
  cmd : Word
  /-- `A0`, the message data address. -/
  a0 : Addr
  /-- `A1`, the message length in bytes. -/
  a1 : Addr
  /-- `A2`, the digest output address. -/
  a2 : Addr
deriving DecidableEq, Repr, Inhabited

/-- The commands with the operands each reads (R73). -/
inductive Instr where
  /-- `INIT c` (R130). -/
  | init (c : CtxIdx)
  /-- `UPDATE c, a0, a1` (R140). -/
  | update (c : CtxIdx) (a0 a1 : Addr)
  /-- `FINAL c, a2` (R150). -/
  | final (c : CtxIdx) (a2 : Addr)
  /-- `BLOCK a0, a1, a2` (R170). -/
  | block (a0 a1 a2 : Addr)
  /-- `BLOCK_CTX c, a0, a1, a2` (R175). -/
  | blockCtx (c : CtxIdx) (a0 a1 a2 : Addr)
deriving DecidableEq, Repr, Inhabited

end Sys2Proof
end

