-- ==== Sys2Proof/WellFormed.lean ====
section
/-! DEFINITION. Which records and commands a machine of address width `aw` has: every operand is an
`AW`-bit value (spec/30_encoding.md R70, R72).  The check `c < NCTX` is no part of this: it belongs
to execution (R77). -/

namespace Sys2Proof

/-- `a` is an `aw`-bit value. -/
def fits (aw : Nat) (a : Addr) : Bool := decide (a.toNat < 2 ^ aw)

/-- Every operand field of the record is an `AW`-bit value (R70). -/
def Record.wellFormed (aw : Nat) (r : Record) : Bool :=
  fits aw r.a0 && fits aw r.a1 && fits aw r.a2

/-- Every operand of the command is an `AW`-bit value (R70, R73). -/
def Instr.wellFormed (aw : Nat) : Instr → Bool
  | .init _ => true
  | .update _ a0 a1 => fits aw a0 && fits aw a1
  | .final _ a2 => fits aw a2
  | .block a0 a1 a2 => fits aw a0 && fits aw a1 && fits aw a2
  | .blockCtx _ a0 a1 a2 => fits aw a0 && fits aw a1 && fits aw a2

end Sys2Proof
end

