-- ==== Sys2Proof/Decode.lean ====
section
/-! DEFINITION. Decoding, total on every command record, and the encoder (spec/30_encoding.md R71 to
R77, R80). -/

namespace Sys2Proof

/-- Why a command word decodes to `ILLEGAL` (R75, R76, R77). -/
inductive DecodeError where
  /-- `RSV1 = CMD[31:16]` is not 0 (R75). -/
  | reservedHighBits
  /-- `RSV0 = CMD[7:4]` is not 0 (R75). -/
  | reservedLowBits
  /-- `OP` is `0x0` or `0x6` to `0xF` (R76). -/
  | reservedOpcode
  /-- `OP` is BLOCK and `CTX` is not 0 (R72, R77). -/
  | blockNamesContext
deriving DecidableEq, Repr

/-- `OP = CMD[3:0]` (R71). -/
def opField (cmd : Word) : BitVec 4 := cmd.extractLsb' 0 4

/-- `RSV0 = CMD[7:4]` (R71). -/
def rsv0Field (cmd : Word) : BitVec 4 := cmd.extractLsb' 4 4

/-- `CTX = CMD[15:8]` (R71, R72). -/
def ctxField (cmd : Word) : CtxIdx := cmd.extractLsb' 8 8

/-- `RSV1 = CMD[31:16]` (R71). -/
def rsv1Field (cmd : Word) : BitVec 16 := cmd.extractLsb' 16 16

/-- The decoder of R77, operands attached as R73 lists them; unused operand fields are ignored
(R74). -/
def decode (r : Record) : Except DecodeError Instr :=
  if rsv1Field r.cmd ≠ 0 then .error .reservedHighBits
  else if rsv0Field r.cmd ≠ 0 then .error .reservedLowBits
  else
    match (opField r.cmd).toNat with
    | 1 => .ok (.init (ctxField r.cmd))
    | 2 => .ok (.update (ctxField r.cmd) r.a0 r.a1)
    | 3 => .ok (.final (ctxField r.cmd) r.a2)
    | 4 => if ctxField r.cmd ≠ 0 then .error .blockNamesContext else .ok (.block r.a0 r.a1 r.a2)
    | 5 => .ok (.blockCtx (ctxField r.cmd) r.a0 r.a1 r.a2)
    | _ => .error .reservedOpcode

/-- The command word `(c << 8) | OP` (R71, R80). -/
def commandWord (op : BitVec 4) (c : CtxIdx) : Word := (c.setWidth 32 <<< 8) ||| op.setWidth 32

/-- The record a command assembles to, unused operand fields 0 (R73, R80). -/
def encode : Instr → Record
  | .init c => ⟨commandWord 1 c, 0, 0, 0⟩
  | .update c a0 a1 => ⟨commandWord 2 c, a0, a1, 0⟩
  | .final c a2 => ⟨commandWord 3 c, 0, 0, a2⟩
  | .block a0 a1 a2 => ⟨commandWord 4 0, a0, a1, a2⟩
  | .blockCtx c a0 a1 a2 => ⟨commandWord 5 c, a0, a1, a2⟩

/-- The record whose bits are `w`, numbered as spec/opcode_table.json numbers them: `CMD` is bits
31:0, and the operand fields, to which the table gives no bits, are 0. -/
def tableRecord (nbits w : Nat) : Record := ⟨BitVec.ofNat 32 (w % 2 ^ nbits), 0, 0, 0⟩

/-- What the decoder reads from an opcode-table word. -/
def decodeTableWord (nbits w : Nat) : Option Instr :=
  match decode (tableRecord nbits w) with
  | .ok i => some i
  | .error _ => none

end Sys2Proof
end

