-- ==== Sys2Proof/Machine/State.lean ====
section
/-! DEFINITION. The state of the machine as plain data (spec/10_state.md R20 to R37): the core's
registers, the platform's parameters, host memory beside the core (R50), and the host's stream of
events in place of a program (R30).  Also the reasons a step can stop, and reset. -/

namespace Sys2Proof.Machine

/-- One Hash Context: the fields of R20, for a named context and for `SCR` alike (R35). -/
structure Ctx where
  /-- `H[0..7]`, the running digest accumulator (R21). -/
  h : HashWords
  /-- `BUF[0..63]`, the partial block; bytes at and beyond `BUFCNT` are unspecified (R22). -/
  buf : Block
  /-- `BUFCNT`, the number of valid bytes of `BUF` (R23). -/
  bufcnt : BitVec 7
  /-- `BITCNT`, the count of message bits supplied (R24). -/
  bitcnt : BitVec 64
  /-- `TAG`, written by INIT and read by no command (R25). -/
  tag : Word
  /-- `PHASE`, the lifecycle state (R26). -/
  phase : Phase
deriving DecidableEq, Repr, Inhabited

/-- A context whose fields but `PHASE` are the `n`-th draw (R28, R37, R155). -/
def Ctx.drawn (n : Nat) (p : Phase) : Ctx :=
  { h := Vector.ofFn fun j => Config.drawHash n j
    buf := Vector.ofFn fun k => Config.drawByte n k
    bufcnt := Config.drawCount n
    bitcnt := Config.drawBits n
    tag := Config.drawTag n
    phase := p }

/-- The fault codes of R200; `FaultCode.bits` gives their numbers. -/
inductive FaultCode where
  | illegalCommand
  | badContext
  | notReady
  | nullData
  | dataRange
  | badDigest
  | lengthOverflow
deriving DecidableEq, Repr

/-- One access of the core to host memory: always one byte (R55). -/
inductive BusAccess where
  | read (a : Nat)
  | write (a : Nat) (v : Byte)
deriving DecidableEq, Repr

/-- What the host can do to the machine (R6, R63, R230, R237).  Reading the fault registers changes
nothing (R32), so it is the function `State.readPort` and no event. -/
inductive HostEvent where
  /-- The host issues one command record (R70). -/
  | command (r : Record)
  /-- The host raises the reset event (R230). -/
  | reset
  /-- The host, between commands, stores a byte in the memory it owns (R6, R237). -/
  | store (a : Nat) (v : Byte)
  /-- Two agents issue a command at once: the schedule a model refuses (R63, R206). -/
  | concurrent (r₁ r₂ : Record)
deriving DecidableEq, Repr

/-- Host memory: the listed bytes in strictly rising address order, none equal to what an unlisted
address reads as (`Memory.wf`). -/
abbrev Memory := List Host.Cell

/-- The whole machine. -/
structure State where
  /-- The platform's parameters but `NCTX`; no step changes them (R8, R232). -/
  cfg : Params
  /-- The named contexts `ctx[0 .. NCTX-1]`; the length of the list is `NCTX` (R20, P5). -/
  ctxs : List Ctx
  /-- The scratch context `SCR` (R35). -/
  scr : Ctx
  /-- `STATUS.CODE`; the rest of `STATUS` is hardwired 0 and is computed (R32). -/
  code : BitVec 4
  /-- `FCMD` (R33). -/
  fcmd : Word
  /-- `FARG` (R33). -/
  farg : Addr
  /-- Host memory, held beside the core (R50). -/
  mem : Memory
  /-- The events the host has still to raise, next first: the stand-in for a program (R30). -/
  host : List HostEvent
  /-- Every access the core has made to host memory, oldest first (R55, R56): the model's own
  record of what the bus saw; nothing reads it (notes/assumptions/9.md). -/
  bus : List BusAccess
  /-- How many draws have been taken: the model's own counter (notes/assumptions/4.md). -/
  draws : Nat
deriving DecidableEq, Repr

/-- `NCTX` (R8 P5). -/
def State.nctx (s : State) : Nat := s.ctxs.length

/-- Why a step stops the model.  The core's own faults are not here: taking one is a next state with
the fault registers written and the core halted (R203). -/
inductive Fault where
  /-- Raised by the host's `store` event at an address at or beyond `2^AW`, which R50 says does not
  exist.  Safe: the model stops where the machine has no such event. -/
  | noSuchAddress
deriving DecidableEq, Repr

/-- Why the model gives an input no meaning. -/
inductive Refusal where
  /-- An arm of `exec` whose instruction has no meaning yet; no arm is one.  Safe. -/
  | notModelled (mnemonic : String)
  /-- Raised by the host's `concurrent` event: R63 says a model refuses such a schedule.  Safe. -/
  | concurrentCommands
  /-- Raised by a record with an operand that is no `AW`-bit value: R70 gives the record no such
  field, so the host has no such record to issue.  Safe. -/
  | operandTooWide
deriving DecidableEq, Repr

/-- Every piece of core state at its reset value (R37, R230) for `nctx` contexts, draws taken from
number `n` on, the platform's parameters, host memory and the host's events as given. -/
def State.afterReset (cfg : Params) (nctx n : Nat) (mem : Memory) (host : List HostEvent)
    (bus : List BusAccess) : State where
  cfg := cfg
  ctxs := (List.range nctx).map fun c => Ctx.drawn (n + c) .uninitialized
  scr := Ctx.drawn (n + nctx) .uninitialized
  code := 0
  fcmd := 0
  farg := 0
  mem := mem
  host := host
  bus := bus
  draws := n + nctx + 1

/-- The parameters at `State.reset`: `AW = 32` and `MV_A`, those of every vector and program of
spec/95_test_vectors.md; the other three are left open (notes/assumptions/3.md). -/
def referenceParams : Params where
  aw := 32
  shaMagic := Config.shaMagic
  layout := Config.layout
  ctxMinSize := Config.ctxMinSize
  memValid := .everywhere

/-- The machine right after reset (R37, R231), with `NCTX = 4` (spec/95_test_vectors.md), no byte of
memory listed and no event pending. -/
def State.reset : State := State.afterReset referenceParams 4 0 [] [] []

end Sys2Proof.Machine
end

