-- ==== Sys2Proof/Machine/Ops.lean ====
section
/-! DEFINITION. The named operations over memory, contexts and the fault registers, and taking a
fault (spec/20_memory.md R50 to R57, spec/60_exceptions.md R203, spec/70_reset_and_hazards.md
R230). -/

namespace Sys2Proof.Machine

/-! ## Host memory -/

/-- What an address reads as that the memory does not list (notes/assumptions/5.md). -/
def Memory.unlisted : Byte := 0

/-- The canonical form: addresses strictly rising, no entry equal to the unlisted value. -/
abbrev Memory.wf (m : Memory) : Prop :=
  m.Pairwise (fun x y => x.1 < y.1) ∧ ∀ x ∈ m, x.2 ≠ Memory.unlisted

/-- `MemRead(a, 1)` (R11, R55). -/
def Memory.read : Memory → Nat → Byte
  | [], _ => Memory.unlisted
  | (b, v) :: m, a => if a = b then v else Memory.read m a

/-- `MemWrite(a, 1, v)`, keeping the canonical form (R11, R55). -/
def Memory.write : Memory → Nat → Byte → Memory
  | [], a, v => if v = Memory.unlisted then [] else [(a, v)]
  | (b, w) :: m, a, v =>
    if a < b then (if v = Memory.unlisted then (b, w) :: m else (a, v) :: (b, w) :: m)
    else if a = b then (if v = Memory.unlisted then m else (a, v) :: m)
    else (b, w) :: Memory.write m a v

/-- `MemWrite(a, n, vs)`: byte `i` to `a + i`, in increasing address order (R11, R55). -/
def Memory.writeBytes : Memory → Nat → List Byte → Memory
  | m, _, [] => m
  | m, a, v :: vs => Memory.writeBytes (Memory.write m a v) (a + 1) vs

/-- The accesses of `MemWrite(a, n, vs)` in order (R55). -/
def busWrites : Nat → List Byte → List BusAccess
  | _, [] => []
  | a, v :: vs => .write a v :: busWrites (a + 1) vs

/-- The addresses of the message range `[a0, a0 + a1)` in increasing order (R53, R55). -/
def messageAddrs (a0 a1 : Addr) : List Nat := List.range' a0.toNat a1.toNat

/-- `MemRead(a0, a1)`: the message bytes in stream order (R11, R53). -/
def State.message (s : State) (a0 a1 : Addr) : List Byte :=
  (messageAddrs a0 a1).map s.mem.read

/-- The accesses of reading the message range, each byte once in increasing order (R55). -/
def busReads (a0 a1 : Addr) : List BusAccess := (messageAddrs a0 a1).map .read

/-- Put the reads of the message range on the bus (R55). -/
def State.noteReads (s : State) (a0 a1 : Addr) : State :=
  { s with bus := s.bus ++ busReads a0 a1 }

/-- Write bytes to host memory from `a2` on, each a one-byte access (R55, R154). -/
def State.writeOut (s : State) (a2 : Addr) (bytes : List Byte) : State :=
  { s with mem := s.mem.writeBytes a2.toNat bytes, bus := s.bus ++ busWrites a2.toNat bytes }

/-- Replace host memory (R6). -/
def State.setMem (s : State) (m : Memory) : State := { s with mem := m }

/-- Replace the host's further events (R30). -/
def State.setHost (s : State) (es : List HostEvent) : State := { s with host := es }

/-! ## Contexts -/

/-- `ctx[c]`, absent for `c ≥ NCTX` (R7, R72). -/
def State.ctx? (s : State) (c : CtxIdx) : Option Ctx := s.ctxs[c.toNat]?

/-- Replace `ctx[c]`, leaving every other context (R7). -/
def State.setCtx (s : State) (c : CtxIdx) (x : Ctx) : State :=
  { s with ctxs := s.ctxs.set c.toNat x }

/-- Replace `SCR` (R35). -/
def State.setScr (s : State) (x : Ctx) : State := { s with scr := x }

/-- Advance the draw counter past one draw (notes/assumptions/4.md). -/
def State.tick (s : State) : State := { s with draws := s.draws + 1 }

/-- Run the effect of a command on the context it names.  Without such a context nothing happens;
a command makes the check `c < NCTX` first, so that case is never reached (R202). -/
def State.onCtx (s : State) (c : CtxIdx) (effect : Ctx → State) : State :=
  match s.ctx? c with
  | some x => effect x
  | none => s

/-! ## Taking a fault -/

/-- The number of a fault code, as `STATUS.CODE` holds it (R200). -/
def FaultCode.bits : FaultCode → BitVec 4
  | .illegalCommand => 1
  | .badContext => 2
  | .notReady => 3
  | .nullData => 4
  | .dataRange => 5
  | .badDigest => 6
  | .lengthOverflow => 7

/-- The core is halted exactly while a fault is recorded (R203, R236). -/
def State.halted (s : State) : Bool := decide (s.code ≠ 0)

/-- Fault entry: `STATUS.CODE`, `FCMD` and `FARG` are written, and nothing else changes (R203).
There is no return from a fault but reset (R204). -/
def State.raise (s : State) (k : FaultCode) (cmd : Word) (arg : Addr) : State :=
  { s with code := k.bits, fcmd := cmd, farg := arg }

/-! ## Reset -/

/-- The reset event: every piece of core state to its reset value; host memory, the platform's
parameters, the host's further events and the bus record stay (R37, R230). -/
def State.coreReset (s : State) : State :=
  State.afterReset s.cfg s.nctx s.draws s.mem s.host s.bus

end Sys2Proof.Machine
end

