-- ==== Sys2Proof/Machine/Operands.lean ====
section
/-! DEFINITION. The operand checks of the commands, one definition per check, and their fixed order
(spec/20_memory.md R51, R58, R59; spec/60_exceptions.md R200 to R203). -/

namespace Sys2Proof.Machine

/-- A failed check: the code and what `FARG` receives (R200). -/
structure Violation where
  code : FaultCode
  arg : Addr
deriving DecidableEq, Repr

/-- The window holds the whole range `[a, a + n)` and admits accesses of this kind. -/
def windowAdmits (w : Window) (a n : Nat) (k : AccessKind) : Bool :=
  decide (w.base ≤ a) && decide (a + n ≤ w.base + w.size) &&
    (match k with | .read => w.canRead | .write => w.canWrite)

/-- `MemValid(a, n, k)` (R8 P11, R51). -/
def memValid (m : Admission) (a n : Nat) (k : AccessKind) : Bool :=
  match m with
  | .everywhere => true
  | .windows ws => ws.any fun w => windowAdmits w a n k
  | .platform p => Config.platformMemValid p a n k

/-- The range neither runs past the top of the address space (R59) nor fails `MemValid` (R51). -/
def rangeAdmitted (p : Params) (a : Addr) (n : Nat) (k : AccessKind) : Bool :=
  decide (a.toNat + n ≤ 2 ^ p.aw) && memValid p.memValid a.toNat n k

/-- `check ok else raise Fault(code, arg)` (R11). -/
def require (ok : Bool) (code : FaultCode) (arg : Addr) : Option Violation :=
  if ok then none else some ⟨code, arg⟩

/-- `c < NCTX`, else BAD_CONTEXT with `c` (R72, R200). -/
def checkContext (s : State) (c : CtxIdx) : Option Violation :=
  require (decide (c.toNat < s.nctx)) .badContext (c.setWidth 64)

/-- `ctx[c].PHASE = Ready`, else NOT_READY with `c`; `TAG` takes no part (R200, R201). -/
def checkReady (s : State) (c : CtxIdx) : Option Violation :=
  require (decide ((s.ctx? c).map (·.phase) = some .ready)) .notReady (c.setWidth 64)

/-- `a1 > 0` implies `a0 ≠ 0`, else NULL_DATA with `a0` (R58, R200). -/
def checkNull (a0 a1 : Addr) : Option Violation :=
  require (decide (a1 = 0 ∨ a0 ≠ 0)) .nullData a0

/-- `a1 > 0` implies the message range is admitted, else DATA_RANGE with `a0` (R51, R59, R200). -/
def checkData (p : Params) (a0 a1 : Addr) : Option Violation :=
  require (decide (a1 = 0) || rangeAdmitted p a0 a1.toNat .read) .dataRange a0

/-- `bits + 8 × a1 < 2^64` in exact arithmetic, else LENGTH_OVERFLOW with `a1` (R145, R200). -/
def checkLength (bits : Nat) (a1 : Addr) : Option Violation :=
  require (decide (bits + 8 * a1.toNat < 2 ^ 64)) .lengthOverflow a1

/-- `a2 ≠ 0` and the 32-byte digest range is admitted, else BAD_DIGEST with `a2` (R58, R59, R200). -/
def checkDigest (p : Params) (a2 : Addr) : Option Violation :=
  require (decide (a2 ≠ 0) && rangeAdmitted p a2 32 .write) .badDigest a2

/-- `ctx[c].BITCNT` as a number; without such a context the BAD_CONTEXT check has failed first. -/
def State.bitsOf (s : State) (c : CtxIdx) : Nat :=
  match s.ctx? c with
  | some x => x.bitcnt.toNat
  | none => 0

/-- The first check that fails: the only one reported (R202). -/
def firstViolation : List (Option Violation) → Option Violation
  | [] => none
  | some v :: _ => some v
  | none :: rest => firstViolation rest

/-- One command: a halted core does nothing (R203); otherwise every check comes before any effect,
and the first that fails is taken as a fault (R202, R203). -/
def attempt (cmd : Word) (checks : List (Option Violation)) (effect : State → State)
    (s : State) : State :=
  if s.halted then s
  else
    match firstViolation checks with
    | some v => s.raise v.code cmd v.arg
    | none => effect s

end Sys2Proof.Machine
end

