-- ==== Sys2Proof/Machine/Streaming.lean ====
section
/-! DEFINITION. The streaming driver: the bodies of INIT, UPDATE and FINAL on one context, and the
three commands (spec/42_driver.md R130 to R156).  The one-shot commands run the same bodies. -/

namespace Sys2Proof.Machine

/-! ## The bodies -/

/-- INIT-body (R130): every field but `BUF`. -/
def initBody (magic : Word) (x : Ctx) : Ctx :=
  { x with h := initialHash, bufcnt := 0, bitcnt := 0, tag := magic, phase := .ready }

/-- Take one message byte; a block that becomes full is compressed at once (R140, R142). -/
def takeByte (x : Ctx) (b : Byte) : Ctx :=
  let buf := x.buf.setIfInBounds x.bufcnt.toNat b
  if x.bufcnt + 1 = 64 then { x with h := compress x.h buf, buf := buf, bufcnt := 0 }
  else { x with buf := buf, bufcnt := x.bufcnt + 1 }

/-- UPDATE-body (R140, R143): count the bits, then take the bytes in stream order. -/
def updateBody (x : Ctx) (bytes : List Byte) : Ctx :=
  bytes.foldl takeByte { x with bitcnt := x.bitcnt + BitVec.ofNat 64 (8 * bytes.length) }

/-- Give the bytes of `BUF` at and beyond `BUFCNT` the `n`-th draw: they are unspecified (R22), and
an implementation's direct block path leaves others there than R140's loop (R146). -/
def redrawTail (n : Nat) (x : Ctx) : Ctx :=
  { x with buf := Vector.ofFn fun k =>
      if k.val < x.bufcnt.toNat then x.buf[k] else Config.drawByte n k }

/-- `for j in lo..hi-1: BUF[j] <- 0x00` (R150). -/
def zeroFill (buf : Block) (lo hi : Nat) : Block :=
  Vector.ofFn fun j => if lo ≤ j.val ∧ j.val < hi then 0 else buf[j]

/-- `BUF[56..63] <- BE64bytes(L)` (R153). -/
def putFooter (buf : Block) (bits : BitVec 64) : Block :=
  Vector.ofFn fun j => if 56 ≤ j.val then (be64Bytes bits).getD (j.val - 56) 0 else buf[j]

/-- `BUF[BUFCNT] <- 0x80` (R151). -/
def putMarker (x : Ctx) : Block := x.buf.setIfInBounds x.bufcnt.toNat 0x80

/-- The blocks FINAL compresses, in order: one if `BUFCNT ≤ 55`, two if `BUFCNT ≥ 56`
(R150 to R153, R156; the threshold is 90_conflicts.md C2). -/
def finalBlocks (x : Ctx) : List Block :=
  if 56 ≤ x.bufcnt.toNat then
    [zeroFill (putMarker x) (x.bufcnt.toNat + 1) 64,
     putFooter (zeroFill (putMarker x) 0 56) x.bitcnt]
  else [putFooter (zeroFill (putMarker x) (x.bufcnt.toNat + 1) 56) x.bitcnt]

/-- `H` when FINAL writes the digest (R150, R153). -/
def finalHash (x : Ctx) : HashWords := (finalBlocks x).foldl compress x.h

/-- FINAL-body's digest (R154). -/
def finalDigest (x : Ctx) : List Byte := digestBytes (finalHash x)

/-! ## The commands -/

/-- The command word of an instruction, as the host issued it: what a fault records (R203). -/
def cmdOf (i : Instr) : Word := (encode i).cmd

/-- The effect of INIT (R130). -/
def initEffect (c : CtxIdx) (s : State) : State :=
  s.onCtx c fun x => s.setCtx c (initBody s.cfg.shaMagic x)

/-- `INIT c` (R130, R131). -/
def execInit (c : CtxIdx) (s : State) : Host.Outcome State Fault Refusal :=
  .next (attempt (cmdOf (.init c)) [checkContext s c] (initEffect c) s)

/-- The effect of UPDATE (R140 to R147); with `a1 = 0` nothing changes (R147). -/
def updateEffect (c : CtxIdx) (a0 a1 : Addr) (s : State) : State :=
  if a1 = 0 then s
  else
    s.onCtx c fun x =>
      ((s.setCtx c (redrawTail s.draws (updateBody x (s.message a0 a1)))).noteReads a0 a1).tick

/-- `UPDATE c, a0, a1` (R140 to R148). -/
def execUpdate (c : CtxIdx) (a0 a1 : Addr) (s : State) : Host.Outcome State Fault Refusal :=
  .next (attempt (cmdOf (.update c a0 a1))
    [checkContext s c, checkReady s c, checkNull a0 a1, checkData s.cfg a0 a1,
     checkLength (s.bitsOf c) a1]
    (updateEffect c a0 a1) s)

/-- The effect of FINAL (R150 to R155): the digest is written, the context becomes Finalized and its
other fields unspecified. -/
def finalEffect (c : CtxIdx) (a2 : Addr) (s : State) : State :=
  s.onCtx c fun x =>
    ((s.setCtx c (Ctx.drawn s.draws .finalized)).writeOut a2 (finalDigest x)).tick

/-- `FINAL c, a2` (R150 to R156). -/
def execFinal (c : CtxIdx) (a2 : Addr) (s : State) : Host.Outcome State Fault Refusal :=
  .next (attempt (cmdOf (.final c a2))
    [checkContext s c, checkReady s c, checkDigest s.cfg a2]
    (finalEffect c a2) s)

end Sys2Proof.Machine
end

