-- ==== Sys2Proof/Machine/OneShot.lean ====
section
/-! DEFINITION. The one-shot commands BLOCK and BLOCK_CTX (spec/43_oneshot.md R170 to R177). -/

namespace Sys2Proof.Machine

/-- The digest of INIT-body, UPDATE-body and FINAL-body in sequence on the context `x` (R170,
R175). -/
def oneShotDigest (s : State) (x : Ctx) (a0 a1 : Addr) : List Byte :=
  finalDigest (updateBody (initBody s.cfg.shaMagic x) (s.message a0 a1))

/-- The effect of BLOCK (R170): the bodies run on `SCR`, every read before any write (R56); `SCR`
ends unspecified (R171). -/
def blockEffect (a0 a1 a2 : Addr) (s : State) : State :=
  (((s.setScr (Ctx.drawn s.draws (Config.drawPhase s.draws))).noteReads a0 a1).writeOut a2
    (oneShotDigest s s.scr a0 a1)).tick

/-- `BLOCK a0, a1, a2` (R170 to R172). -/
def execBlock (a0 a1 a2 : Addr) (s : State) : Host.Outcome State Fault Refusal :=
  .next (attempt (cmdOf (.block a0 a1 a2))
    [checkNull a0 a1, checkData s.cfg a0 a1, checkLength 0 a1, checkDigest s.cfg a2]
    (blockEffect a0 a1 a2) s)

/-- The effect of BLOCK_CTX (R175): the bodies run on `ctx[c]`, which ends Finalized with its other
fields unspecified (R155). -/
def blockCtxEffect (c : CtxIdx) (a0 a1 a2 : Addr) (s : State) : State :=
  s.onCtx c fun x =>
    (((s.setCtx c (Ctx.drawn s.draws .finalized)).noteReads a0 a1).writeOut a2
      (oneShotDigest s x a0 a1)).tick

/-- `BLOCK_CTX c, a0, a1, a2` (R175 to R177). -/
def execBlockCtx (c : CtxIdx) (a0 a1 a2 : Addr) (s : State) : Host.Outcome State Fault Refusal :=
  .next (attempt (cmdOf (.blockCtx c a0 a1 a2))
    [checkContext s c, checkNull a0 a1, checkData s.cfg a0 a1, checkLength 0 a1,
     checkDigest s.cfg a2]
    (blockCtxEffect c a0 a1 a2) s)

end Sys2Proof.Machine
end

