-- ==== Sys2Proof/Machine/Dispatch.lean ====
section
/-! DEFINITION. One arm per command (spec/30_encoding.md R73). -/

namespace Sys2Proof.Machine

def exec (i : Instr) (s : State) : Host.Outcome State Fault Refusal :=
  match i with
  | .init c => Sys2Proof.Machine.execInit c s
  | .update c a0 a1 => Sys2Proof.Machine.execUpdate c a0 a1 s
  | .final c a2 => Sys2Proof.Machine.execFinal c a2 s
  | .block a0 a1 a2 => Sys2Proof.Machine.execBlock a0 a1 a2 s
  | .blockCtx c a0 a1 a2 => Sys2Proof.Machine.execBlockCtx c a0 a1 a2 s

end Sys2Proof.Machine
end

