-- ==== Sys2Proof/Machine/Events.lean ====
section
/-! DEFINITION. What each event of the host does: the command interface, reset, the host's own stores
(spec/00_scope.md R6, spec/30_encoding.md R70, R77, spec/60_exceptions.md R200 to R206,
spec/70_reset_and_hazards.md R230 to R237). -/

namespace Sys2Proof.Machine

/-- The core is given one command record (R70): decode it, run it, or take ILLEGAL_COMMAND, unless
the core is halted (R77, R202, R203). -/
def issue (r : Record) (s : State) : Host.Outcome State Fault Refusal :=
  if r.wellFormed s.cfg.aw then
    match decode r with
    | .ok i => exec i s
    | .error _ => .next (attempt r.cmd [some ⟨.illegalCommand, 0⟩] id s)
  else .refused .operandTooWide

/-- The host stores a byte of its memory between two commands (R6, R237); there is no address at or
beyond `2^AW` (R50). -/
def hostStore (a : Nat) (v : Byte) (s : State) : Host.Outcome State Fault Refusal :=
  if a < 2 ^ s.cfg.aw then .next (s.setMem (s.mem.write a v)) else .fault .noSuchAddress

/-- One event of the host. -/
def takeEvent (e : HostEvent) (s : State) : Host.Outcome State Fault Refusal :=
  match e with
  | .command r => issue r s
  | .reset => .next s.coreReset
  | .store a v => hostStore a v s
  | .concurrent _ _ => .refused .concurrentCommands

/-- One step: the host's next event, or an idle core that keeps all its state (R30, R214). -/
def advance (s : State) : Host.Outcome State Fault Refusal :=
  match s.host with
  | [] => .next s
  | e :: rest => takeEvent e (s.setHost rest)

/-- Make this record the host's next event. -/
def placeRecord (r : Record) (s : State) : State := s.setHost (.command r :: s.host)

end Sys2Proof.Machine
end

