-- ==== Sys2Proof/Machine/Flags.lean ====
section
/-! DEFINITION. The core computes no flags (spec/10_state.md R31).  What the host can read of it: the
STATUS word and the register port (R32 to R34). -/

namespace Sys2Proof.Machine

/-- `STATUS`: `CODE` in bits 3:0, bits 31:4 hardwired 0 (R32). -/
def State.status (s : State) : Word := s.code.setWidth 32

/-- The observation port: register 0 is STATUS, 1 is FCMD, 2 is FARG, and there is no other (R34).
Reading changes nothing (R32). -/
def State.readPort (s : State) : Nat → Option Addr
  | 0 => some (s.status.setWidth 64)
  | 1 => some (s.fcmd.setWidth 64)
  | 2 => some s.farg
  | _ => none

end Sys2Proof.Machine
end

