-- ==== Sys2Proof/Safety.lean ====
section
/-! DEFINITION. What holds of the machine in every state it can reach, and what a finished run is
(spec/10_state.md R23 to R27, R32, R33; spec/70_reset_and_hazards.md R236). -/

namespace Sys2Proof.Machine

/-- The ranges of R8: P6. -/
def paramsOk (p : Params) : Prop := 16 ≤ p.aw ∧ p.aw ≤ 64

/-- The counts of a Ready context agree (R27): `BUFCNT = (BITCNT >> 3) mod 64`, and `BITCNT` counts
whole bytes.  Nothing is said of a context in another phase (R28). -/
def Ctx.countsAgree (x : Ctx) : Prop :=
  x.phase = .ready → x.bufcnt.toNat = x.bitcnt.toNat / 8 % 64 ∧ x.bitcnt.toNat % 8 = 0

/-- The invariant of the machine. -/
structure State.Inv (s : State) : Prop where
  /-- P6 is in range (R8). -/
  params : paramsOk s.cfg
  /-- P5 is in range (R8). -/
  contexts : 1 ≤ s.nctx ∧ s.nctx ≤ 256
  /-- Every Ready context's counts agree (R23, R27). -/
  counts : ∀ x ∈ s.ctxs, x.countsAgree
  /-- Host memory is in its canonical form. -/
  memForm : s.mem.wf
  /-- Host memory lists only addresses that exist (R50). -/
  memRange : ∀ x ∈ s.mem, x.1 < 2 ^ s.cfg.aw
  /-- `CODE` 8 to 15 are never written (R32, R200). -/
  codeRange : s.code.toNat ≤ 7
  /-- While no fault is recorded, `FCMD` and `FARG` are 0 (R33). -/
  noFault : s.code = 0 → s.fcmd = 0 ∧ s.farg = 0
  /-- `FARG` is an `AW`-bit value (R33). -/
  fargRange : fits s.cfg.aw s.farg = true

/-- A finished run: every event of the host raised, no fault recorded (R236). -/
def State.finished (s : State) : Prop := s.host = [] ∧ s.code = 0

end Sys2Proof.Machine
end

