-- ==== Sys2Proof/Certificates/Slice0/Obligations.lean ====
section
/-! DEFINITION. The statements for the provers, from the numbered rules of spec/.  The helper
definitions under Sys2Proof.Claim say in the spec's own terms what the statements compare the machine
with. -/

namespace Sys2Proof.Claim

open Sys2Proof.Machine

/-! ## Helpers -/

/-- The bytes of host memory at `[a0, a0 + a1)` in increasing address order (R53). -/
def hostBytes (m : Memory) (a0 a1 : Addr) : List Byte :=
  (List.range a1.toNat).map fun i => m.read (a0.toNat + i)

/-- The conditions on a message range under which no command faults on it (R200: NULL_DATA,
DATA_RANGE). -/
def dataOk (p : Params) (a0 a1 : Addr) : Prop :=
  a1 = 0 ∨ (a0 ≠ 0 ∧ a0.toNat + a1.toNat ≤ 2 ^ p.aw ∧
    memValid p.memValid a0.toNat a1.toNat .read = true)

/-- The conditions on a digest range under which no command faults on it (R200: BAD_DIGEST). -/
def digestOk (p : Params) (a2 : Addr) : Prop :=
  a2 ≠ 0 ∧ a2.toNat + 32 ≤ 2 ^ p.aw ∧ memValid p.memValid a2.toNat 32 .write = true

/-- The complete 64-byte blocks of a byte stream, in order (R144). -/
def blocksOf (l : List Byte) : List Block :=
  (List.range (l.length / 64)).map fun i => Vector.ofFn fun k => l.getD (64 * i + k.val) 0

/-- The state words after compressing every complete block of a stream, from `h` on (R144). -/
def hashOf (h : HashWords) (l : List Byte) : HashWords := (blocksOf l).foldl compress h

/-- UPDATE's loop by the direct block path of R146: while no partial bytes are pending and a full block
of the chunk remains, that block is compressed without passing through `BUF`.  The first argument
bounds the number of turns. -/
def directTake : Nat → Ctx → List Byte → Ctx
  | 0, x, _ => x
  | _ + 1, x, [] => x
  | n + 1, x, b :: bs =>
    if x.bufcnt = 0 ∧ 64 ≤ (b :: bs).length then
      directTake n { x with h := compress x.h (Vector.ofFn fun k => (b :: bs).getD k.val 0) }
        ((b :: bs).drop 64)
    else directTake n (takeByte x b) bs

/-- The padding footer of a message of `n` bytes and bit length `bits`: `0x80`, the zero bytes that
leave room for exactly 8 bytes in the last block, and the length (R151 to R153). -/
def padding (n : Nat) (bits : BitVec 64) : List Byte :=
  0x80 :: List.replicate ((119 - n % 64) % 64) 0 ++ be64Bytes bits

/-- The SHA-256 digest of a message, all at once (R111 to R115, R151 to R154). -/
def sha256 (m : List Byte) : List Byte :=
  digestBytes (hashOf initialHash (m ++ padding m.length (BitVec.ofNat 64 (8 * m.length))))

/-- Host memory holds these bytes from `a` on. -/
def holdsBytes (m : Memory) (a : Nat) (bs : List Byte) : Prop :=
  ∀ i, i < bs.length → m.read (a + i) = bs.getD i 0

/-- The two memories read alike outside the 32 bytes from `a` on. -/
def sameOutside (m m' : Memory) (a : Nat) : Prop :=
  ∀ b, (b < a ∨ a + 32 ≤ b) → m'.read b = m.read b

/-- Every context but number `c` is as it was, and there are as many. -/
def sameOtherCtxs (c : CtxIdx) (s t : State) : Prop :=
  t.ctxs.length = s.ctxs.length ∧ ∀ n, n ≠ c.toNat → t.ctxs[n]? = s.ctxs[n]?

/-- The parameters, the host's events and the three fault registers are as they were. -/
def sameControl (s t : State) : Prop :=
  t.cfg = s.cfg ∧ t.host = s.host ∧ t.code = s.code ∧ t.fcmd = s.fcmd ∧ t.farg = s.farg

/-- Run commands one after another (R30, R61). -/
def runAll : List Instr → State → Host.Outcome State Fault Refusal
  | [], s => .next s
  | i :: is, s =>
    match exec i s with
    | .next t => runAll is t
    | .fault r => .fault r
    | .refused r => .refused r

/-- The context a command names (R73). -/
def namedCtx : Instr → Option CtxIdx
  | .init c | .update c _ _ | .final c _ | .blockCtx c _ _ _ => some c
  | .block _ _ _ => none

/-- The digest address of a command that writes a digest (R73). -/
def digestAddr : Instr → Option Addr
  | .final _ a2 | .block _ _ a2 | .blockCtx _ _ _ a2 => some a2
  | .init _ | .update _ _ _ => none

/-- The message range of a command that reads one (R73). -/
def messageRange : Instr → Option (Addr × Addr)
  | .update _ a0 a1 | .block a0 a1 _ | .blockCtx _ a0 a1 _ => some (a0, a1)
  | .init _ | .final _ _ => none

/-- What a later command can see of a context: all that R22, R25, R28 and R35 leave unspecified or
unread is replaced by fixed values. -/
def visibleCtx (x : Ctx) : Ctx :=
  if x.phase = .ready then
    { x with
      buf := Vector.ofFn fun k => if k.val < x.bufcnt.toNat then x.buf[k] else 0
      tag := 0 }
  else { (default : Ctx) with phase := x.phase }

/-- What later commands and the host can see of a state. -/
def visible (s : State) : State :=
  { s with ctxs := s.ctxs.map visibleCtx, scr := default, draws := 0 }

/-- Every Ready context has room for a byte (R23). -/
def countsInRange (s : State) : Prop := ∀ x ∈ s.ctxs, x.phase = .ready → x.bufcnt.toNat ≤ 63

/-- The first 64 primes, in order (R103). -/
def primes64 : List Nat :=
  [2, 3, 5, 7, 11, 13, 17, 19, 23, 29, 31, 37, 41, 43, 47, 53] ++
  [59, 61, 67, 71, 73, 79, 83, 89, 97, 101, 103, 107, 109, 113, 127, 131] ++
  [137, 139, 149, 151, 157, 163, 167, 173, 179, 181, 191, 193, 197, 199, 211, 223] ++
  [227, 229, 233, 239, 241, 251, 257, 263, 269, 271, 277, 281, 283, 293, 307, 311]

/-- The fault registers written, all else unchanged (R203). -/
def faulted (s : State) (code : BitVec 4) (cmd : Nat) (arg : Addr) : State :=
  { s with code := code, fcmd := BitVec.ofNat 32 cmd, farg := arg }

/-- A context index as an `AW`-bit value (R72). -/
def asAddr (c : CtxIdx) : Addr := BitVec.ofNat 64 c.toNat

end Sys2Proof.Claim

open Sys2Proof Sys2Proof.Machine Sys2Proof.Claim

/-! ## Encoding (spec/30_encoding.md) -/

/-- R71, R73, R77, R80: every command decodes from its own record with every operand at every value,
and the command word of whatever a record decodes to is that record's command word. -/
def Obligations.DecodeAndEncodeAgree : Prop :=
  (∀ i : Instr, decode (encode i) = .ok i) ∧
  (∀ (r : Record) (i : Instr), decode r = .ok i → (encode i).cmd = r.cmd)

/-- R75, R76, R77: exactly the words with a reserved bit set, a reserved OP, or BLOCK with a context
decode to ILLEGAL. -/
def Obligations.IllegalWordsAreExactlyTheReservedOnes : Prop :=
  ∀ r : Record,
    (∃ e, decode r = .error e) ↔
      (r.cmd.toNat / 65536 ≠ 0 ∨ r.cmd.toNat / 16 % 16 ≠ 0 ∨ r.cmd.toNat % 16 = 0 ∨
        6 ≤ r.cmd.toNat % 16 ∨ (r.cmd.toNat % 16 = 4 ∧ r.cmd.toNat / 256 % 256 ≠ 0))

/-- R74: INIT ignores A0, A1 and A2; UPDATE ignores A2; FINAL ignores A0 and A1: whatever their
values, the command does the same, faults included. -/
def Obligations.UnusedOperandsChangeNothing : Prop :=
  ∀ (s : State) (r r' : Record), r.wellFormed s.cfg.aw = true → r'.wellFormed s.cfg.aw = true →
    r'.cmd = r.cmd →
    ((r.cmd.toNat % 16 = 1) ∨
     (r.cmd.toNat % 16 = 2 ∧ r'.a0 = r.a0 ∧ r'.a1 = r.a1) ∨
     (r.cmd.toNat % 16 = 3 ∧ r'.a2 = r.a2)) →
    issue r' s = issue r s

/-- R80: the five example records decode to the commands they assemble from. -/
def Obligations.ExampleWordsDecode : Prop :=
  decode ⟨0x00000001, 0, 0, 0⟩ = .ok (.init 0) ∧
  decode ⟨0x00000102, 0x1000, 3, 0⟩ = .ok (.update 1 0x1000 3) ∧
  decode ⟨0x00000003, 0, 0, 0x2000⟩ = .ok (.final 0 0x2000) ∧
  decode ⟨0x00000004, 0x1000, 3, 0x2000⟩ = .ok (.block 0x1000 3 0x2000) ∧
  decode ⟨0x00000205, 0x1000, 3, 0x2000⟩ = .ok (.blockCtx 2 0x1000 3 0x2000)

/-! ## The step (spec/10_state.md R30, spec/60_exceptions.md, spec/70_reset_and_hazards.md) -/

/-- R30, R70: when the host's next event is a record of the machine that decodes to a command, the
step is `exec` of that command with the event taken off the stream (the stream of events is the model's
form of R30's command sequence, notes/assumptions/8.md and 13.md). -/
def Obligations.StepRunsTheDecodedCommand : Prop :=
  ∀ (s : State) (r : Record) (rest : List HostEvent) (i : Instr),
    s.host = .command r :: rest → r.wellFormed s.cfg.aw = true → decode r = .ok i →
    step s = exec i { s with host := rest }

/-- R77, R200, R203: a running core given an illegal command word faults ILLEGAL_COMMAND with
`FARG = 0`, and nothing else of the core or of memory changes (that the event is taken off the stream
is the model's choice, notes/assumptions/23.md). -/
def Obligations.IllegalWordFaults : Prop :=
  ∀ (s : State) (r : Record) (rest : List HostEvent) (e : DecodeError),
    s.host = .command r :: rest → r.wellFormed s.cfg.aw = true → decode r = .error e → s.code = 0 →
    step s = .next { s with host := rest, code := 1, fcmd := r.cmd, farg := 0 }

/-- R203: a halted core executes no command: no command of the table changes anything, and a step
only takes the record, legal or not, off the host's stream (notes/assumptions/10.md, 23.md). -/
def Obligations.HaltedCoreExecutesNothing : Prop :=
  ∀ s : State, s.code ≠ 0 →
    (∀ i : Instr, exec i s = .next s) ∧
    (∀ (r : Record) (rest : List HostEvent), s.host = .command r :: rest →
      r.wellFormed s.cfg.aw = true → step s = .next { s with host := rest })

/-- R32, R204: once CODE is non-zero, only the reset event changes it; until then the fault registers
and every context keep their values. -/
def Obligations.OnlyResetLeavesTheHalt : Prop :=
  ∀ (s t : State), s.code ≠ 0 → step s = .next t → s.host.head? ≠ some .reset →
    t.code = s.code ∧ t.fcmd = s.fcmd ∧ t.farg = s.farg ∧ t.ctxs = s.ctxs ∧ t.scr = s.scr

/-- R230: the reset event makes every context and `SCR` Uninitialized and the three fault registers
0, so that the core is not halted, and does not change host memory. -/
def Obligations.ResetEventResetsTheCore : Prop :=
  ∀ (s : State) (rest : List HostEvent), s.host = .reset :: rest →
    ∃ t, step s = .next t ∧ t.ctxs.length = s.ctxs.length ∧
      (∀ x ∈ t.ctxs, x.phase = .uninitialized) ∧ t.scr.phase = .uninitialized ∧
      t.code = 0 ∧ t.fcmd = 0 ∧ t.farg = 0 ∧ t.halted = false ∧ t.mem = s.mem ∧
      t.cfg = s.cfg ∧ t.host = rest

/-- R37: the values the spec gives for reset.  That there are 4 contexts is the model's choice of
P5 (notes/assumptions/3.md). -/
def Obligations.ResetLeavesTheSpecsValues : Prop :=
  (∀ x ∈ State.reset.ctxs, x.phase = .uninitialized) ∧ State.reset.nctx = 4 ∧
  State.reset.scr.phase = .uninitialized ∧
  State.reset.status = 0 ∧ State.reset.fcmd = 0 ∧ State.reset.farg = 0 ∧
  State.reset.halted = false

/-- R214: with no event of the host the core is idle and keeps all its state (the idle step is the
model's, notes/assumptions/13.md). -/
def Obligations.IdleCoreKeepsAllState : Prop :=
  ∀ s : State, s.host = [] → step s = .next s

/-- R63, R206: the schedule in which two agents issue a command at once is refused (as an event of the
model's own, notes/assumptions/17.md). -/
def Obligations.ConcurrentIssueIsRefused : Prop :=
  ∀ (s : State) (r₁ r₂ : Record) (rest : List HostEvent), s.host = .concurrent r₁ r₂ :: rest →
    step s = .refused .concurrentCommands

/-- R6, R50, R237: the host's own store changes one byte of host memory and nothing of the core; at
an address that does not exist the model stops (the stop is the model's choice,
notes/assumptions/8.md). -/
def Obligations.HostStoreChangesOneByte : Prop :=
  ∀ (s : State) (a : Nat) (v : Byte) (rest : List HostEvent), s.host = .store a v :: rest →
    s.mem.wf →
    if a < 2 ^ s.cfg.aw then
      ∃ t, step s = .next t ∧ t.mem.read a = v ∧ (∀ b, b ≠ a → t.mem.read b = s.mem.read b) ∧
        t = { s with host := rest, mem := t.mem }
    else step s = .fault .noSuchAddress

/-- The model's choice (notes/assumptions/7.md): a record with an operand that is no `AW`-bit value,
which R70 gives the host no way to issue, is refused. -/
def Obligations.OverwideRecordIsRefused : Prop :=
  ∀ (s : State) (r : Record) (rest : List HostEvent), s.host = .command r :: rest →
    (2 ^ s.cfg.aw ≤ r.a0.toNat ∨ 2 ^ s.cfg.aw ≤ r.a1.toNat ∨ 2 ^ s.cfg.aw ≤ r.a2.toNat) →
    step s = .refused .operandTooWide

/-- R34: register 0 is STATUS, 1 is FCMD, 2 is FARG, and the core exposes no other; R32: STATUS reads
CODE in bits 3:0 and 0 above. -/
def Obligations.ReadPortShowsTheFaultRegisters : Prop :=
  ∀ s : State,
    s.readPort 0 = some (BitVec.ofNat 64 s.code.toNat) ∧
    s.readPort 1 = some (BitVec.ofNat 64 s.fcmd.toNat) ∧
    s.readPort 2 = some s.farg ∧ (∀ n, 3 ≤ n → s.readPort n = none)

/-! ## The checks of each command, in the fixed order (spec/60_exceptions.md R200 to R203) -/

/-- R130, R200, R203: INIT on a running core faults BAD_CONTEXT for `c ≥ NCTX` and otherwise does not
fault. -/
def Obligations.InitChecksInOrder : Prop :=
  ∀ (s : State) (c : CtxIdx), s.code = 0 →
    if s.nctx ≤ c.toNat then
      exec (.init c) s = .next (faulted s 2 (256 * c.toNat + 1) (asAddr c))
    else ∃ t, exec (.init c) s = .next t ∧ t.code = 0

/-- R140, R200, R202, R203: the checks of UPDATE in their order, what each fault records, and no
fault when all pass. -/
def Obligations.UpdateChecksInOrder : Prop :=
  ∀ (s : State) (c : CtxIdx) (a0 a1 : Addr), s.code = 0 →
    if s.nctx ≤ c.toNat then
      exec (.update c a0 a1) s = .next (faulted s 2 (256 * c.toNat + 2) (asAddr c))
    else if (s.ctx? c).map (·.phase) ≠ some .ready then
      exec (.update c a0 a1) s = .next (faulted s 3 (256 * c.toNat + 2) (asAddr c))
    else if a1 ≠ 0 ∧ a0 = 0 then
      exec (.update c a0 a1) s = .next (faulted s 4 (256 * c.toNat + 2) 0)
    else if a1 ≠ 0 ∧ ¬ (a0.toNat + a1.toNat ≤ 2 ^ s.cfg.aw ∧
        memValid s.cfg.memValid a0.toNat a1.toNat .read = true) then
      exec (.update c a0 a1) s = .next (faulted s 5 (256 * c.toNat + 2) a0)
    else if 2 ^ 64 ≤ ((s.ctx? c).map (·.bitcnt.toNat)).getD 0 + 8 * a1.toNat then
      exec (.update c a0 a1) s = .next (faulted s 7 (256 * c.toNat + 2) a1)
    else ∃ t, exec (.update c a0 a1) s = .next t ∧ t.code = 0

/-- R150, R200, R202, R203: the checks of FINAL in their order, what each fault records, and no fault
when all pass. -/
def Obligations.FinalChecksInOrder : Prop :=
  ∀ (s : State) (c : CtxIdx) (a2 : Addr), s.code = 0 →
    if s.nctx ≤ c.toNat then
      exec (.final c a2) s = .next (faulted s 2 (256 * c.toNat + 3) (asAddr c))
    else if (s.ctx? c).map (·.phase) ≠ some .ready then
      exec (.final c a2) s = .next (faulted s 3 (256 * c.toNat + 3) (asAddr c))
    else if a2 = 0 ∨ 2 ^ s.cfg.aw < a2.toNat + 32 ∨
        memValid s.cfg.memValid a2.toNat 32 .write = false then
      exec (.final c a2) s = .next (faulted s 6 (256 * c.toNat + 3) a2)
    else ∃ t, exec (.final c a2) s = .next t ∧ t.code = 0

/-- R170, R200, R202, R203: the checks of BLOCK in their order, what each fault records, and no fault
when all pass; BAD_CONTEXT and NOT_READY cannot occur. -/
def Obligations.BlockChecksInOrder : Prop :=
  ∀ (s : State) (a0 a1 a2 : Addr), s.code = 0 →
    if a1 ≠ 0 ∧ a0 = 0 then
      exec (.block a0 a1 a2) s = .next (faulted s 4 4 0)
    else if a1 ≠ 0 ∧ ¬ (a0.toNat + a1.toNat ≤ 2 ^ s.cfg.aw ∧
        memValid s.cfg.memValid a0.toNat a1.toNat .read = true) then
      exec (.block a0 a1 a2) s = .next (faulted s 5 4 a0)
    else if 2 ^ 64 ≤ 8 * a1.toNat then
      exec (.block a0 a1 a2) s = .next (faulted s 7 4 a1)
    else if a2 = 0 ∨ 2 ^ s.cfg.aw < a2.toNat + 32 ∨
        memValid s.cfg.memValid a2.toNat 32 .write = false then
      exec (.block a0 a1 a2) s = .next (faulted s 6 4 a2)
    else ∃ t, exec (.block a0 a1 a2) s = .next t ∧ t.code = 0

/-- R175, R200, R202, R203: the checks of BLOCK_CTX in their order, what each fault records, and no
fault when all pass, in every phase of the context. -/
def Obligations.BlockCtxChecksInOrder : Prop :=
  ∀ (s : State) (c : CtxIdx) (a0 a1 a2 : Addr), s.code = 0 →
    if s.nctx ≤ c.toNat then
      exec (.blockCtx c a0 a1 a2) s = .next (faulted s 2 (256 * c.toNat + 5) (asAddr c))
    else if a1 ≠ 0 ∧ a0 = 0 then
      exec (.blockCtx c a0 a1 a2) s = .next (faulted s 4 (256 * c.toNat + 5) 0)
    else if a1 ≠ 0 ∧ ¬ (a0.toNat + a1.toNat ≤ 2 ^ s.cfg.aw ∧
        memValid s.cfg.memValid a0.toNat a1.toNat .read = true) then
      exec (.blockCtx c a0 a1 a2) s = .next (faulted s 5 (256 * c.toNat + 5) a0)
    else if 2 ^ 64 ≤ 8 * a1.toNat then
      exec (.blockCtx c a0 a1 a2) s = .next (faulted s 7 (256 * c.toNat + 5) a1)
    else if a2 = 0 ∨ 2 ^ s.cfg.aw < a2.toNat + 32 ∨
        memValid s.cfg.memValid a2.toNat 32 .write = false then
      exec (.blockCtx c a0 a1 a2) s = .next (faulted s 6 (256 * c.toNat + 5) a2)
    else ∃ t, exec (.blockCtx c a0 a1 a2) s = .next t ∧ t.code = 0

/-- R203: a command that faults changes the three fault registers and nothing else, records its own
command word, and raises one of the codes 1 to 7; a command that does not fault writes none of
them. -/
def Obligations.FaultsArePrecise : Prop :=
  ∀ (i : Instr) (s t : State), exec i s = .next t →
    if t.code = s.code then t.fcmd = s.fcmd ∧ t.farg = s.farg
    else s.code = 0 ∧ 1 ≤ t.code.toNat ∧ t.code.toNat ≤ 7 ∧
      t = { s with code := t.code, fcmd := (encode i).cmd, farg := t.farg }

/-! ## INIT, UPDATE, FINAL (spec/42_driver.md) -/

/-- R102, R130: INIT on a running core, for any context of the machine in any phase, loads the eight
initial words, zeroes the counts, stores the tag and sets Ready; `BUF` keeps its bytes; every other
context, `SCR`, every byte of memory and every other register are unchanged. -/
def Obligations.InitCompletes : Prop :=
  ∀ (s : State) (c : CtxIdx) (x : Ctx), s.code = 0 → s.ctx? c = some x →
    ∃ t, exec (.init c) s = .next t ∧
      t.ctx? c = some
        { h := #v[0x6a09e667, 0xbb67ae85, 0x3c6ef372, 0xa54ff53a,
                  0x510e527f, 0x9b05688c, 0x1f83d9ab, 0x5be0cd19]
          buf := x.buf, bufcnt := 0, bitcnt := 0, tag := s.cfg.shaMagic, phase := .ready } ∧
      sameOtherCtxs c s t ∧ sameControl s t ∧ t.scr = s.scr ∧
      (∀ a, t.mem.read a = s.mem.read a) ∧ t.bus = s.bus ∧ t.draws = s.draws

/-- R140 to R144: UPDATE on a Ready context whose checks pass takes the stream of the buffered bytes
and the message bytes: every complete block is compressed in order, the rest of the stream stands in
`BUF`, the counts are as R143 and R144 say; every other context, `SCR`, every byte of memory and
every other register are unchanged. -/
def Obligations.UpdateCompressesTheStream : Prop :=
  ∀ (s : State) (c : CtxIdx) (a0 a1 : Addr) (x : Ctx), s.code = 0 → s.ctx? c = some x →
    x.phase = .ready → x.bufcnt.toNat ≤ 63 → dataOk s.cfg a0 a1 →
    x.bitcnt.toNat + 8 * a1.toNat < 2 ^ 64 →
    ∃ t y, exec (.update c a0 a1) s = .next t ∧ t.ctx? c = some y ∧
      y.h = hashOf x.h (x.buf.toList.take x.bufcnt.toNat ++ hostBytes s.mem a0 a1) ∧
      y.bufcnt.toNat = (x.bufcnt.toNat + a1.toNat) % 64 ∧
      y.bitcnt.toNat = x.bitcnt.toNat + 8 * a1.toNat ∧
      y.tag = x.tag ∧ y.phase = .ready ∧
      y.buf.toList.take y.bufcnt.toNat =
        (x.buf.toList.take x.bufcnt.toNat ++ hostBytes s.mem a0 a1).drop
          (64 * ((x.bufcnt.toNat + a1.toNat) / 64)) ∧
      sameOtherCtxs c s t ∧ sameControl s t ∧ t.scr = s.scr ∧
      (∀ a, t.mem.read a = s.mem.read a)

/-- R147: UPDATE of length 0 on a Ready context changes nothing and reads no memory, at any data
address; the BAD_CONTEXT and NOT_READY checks are still made. -/
def Obligations.UpdateOfNothingIsANoOp : Prop :=
  ∀ (s : State) (c : CtxIdx) (a0 : Addr), s.code = 0 →
    if s.nctx ≤ c.toNat then
      exec (.update c a0 0) s = .next (faulted s 2 (256 * c.toNat + 2) (asAddr c))
    else if (s.ctx? c).map (·.phase) = some .ready then exec (.update c a0 0) s = .next s
    else exec (.update c a0 0) s = .next (faulted s 3 (256 * c.toNat + 2) (asAddr c))

/-- R148: a chunk given in two consecutive parts, either of them possibly empty, leaves the same `H`,
`BUFCNT`, `BITCNT` and valid bytes of `BUF` as the whole chunk. -/
def Obligations.SplittingAChunkChangesNothing : Prop :=
  ∀ (s t₁ t₂ t : State) (c : CtxIdx) (a0 n₁ n₂ : Addr) (x y z : Ctx),
    s.code = 0 → s.ctx? c = some x → x.phase = .ready → x.bufcnt.toNat ≤ 63 →
    a0.toNat + n₁.toNat + n₂.toNat ≤ 2 ^ s.cfg.aw → s.cfg.aw ≤ 64 → n₁.toNat + n₂.toNat < 2 ^ 64 →
    exec (.update c a0 n₁) s = .next t₁ → exec (.update c (a0 + n₁) n₂) t₁ = .next t₂ →
    exec (.update c a0 (n₁ + n₂)) s = .next t → t₂.code = 0 → t.code = 0 →
    t₂.ctx? c = some y → t.ctx? c = some z →
    y.h = z.h ∧ y.bufcnt = z.bufcnt ∧ y.bitcnt = z.bitcnt ∧
      y.buf.toList.take y.bufcnt.toNat = z.buf.toList.take z.bufcnt.toNat

/-- R146: the direct block path gives the same `H`, `BUFCNT`, `BITCNT` and valid bytes of `BUF` as
UPDATE's loop over single bytes, from any count of buffered bytes. -/
def Obligations.DirectBlockPathAgrees : Prop :=
  ∀ (x : Ctx) (l : List Byte), x.bufcnt.toNat ≤ 63 →
    (directTake l.length x l).h = (l.foldl takeByte x).h ∧
    (directTake l.length x l).bufcnt = (l.foldl takeByte x).bufcnt ∧
    (directTake l.length x l).bitcnt = (l.foldl takeByte x).bitcnt ∧
    (directTake l.length x l).buf.toList.take (l.foldl takeByte x).bufcnt.toNat =
      (l.foldl takeByte x).buf.toList.take (l.foldl takeByte x).bufcnt.toNat

/-- R150 to R155: FINAL on a Ready context whose checks pass compresses the buffered bytes with the
padding footer, writes the digest big-endian at `a2`, and leaves the context Finalized; every other
context, `SCR`, every other byte of memory and every other register are unchanged. -/
def Obligations.FinalWritesThePaddedDigest : Prop :=
  ∀ (s : State) (c : CtxIdx) (a2 : Addr) (x : Ctx), s.code = 0 → s.ctx? c = some x →
    x.phase = .ready → x.bufcnt.toNat ≤ 63 → digestOk s.cfg a2 → s.mem.wf →
    ∃ t y, exec (.final c a2) s = .next t ∧ t.ctx? c = some y ∧ y.phase = .finalized ∧
      holdsBytes t.mem a2.toNat (digestBytes (hashOf x.h
        (x.buf.toList.take x.bufcnt.toNat ++ padding x.bufcnt.toNat x.bitcnt))) ∧
      sameOutside s.mem t.mem a2.toNat ∧
      sameOtherCtxs c s t ∧ sameControl s t ∧ t.scr = s.scr

/-- R156: FINAL compresses one block if `BUFCNT ≤ 55` and two if `BUFCNT ≥ 56`; with the blocks
UPDATE has compressed, a message of `n` bytes takes `ceil((n + 9) / 64)` blocks. -/
def Obligations.FinalCompressesOneOrTwoBlocks : Prop :=
  (∀ x : Ctx, (finalBlocks x).length = if x.bufcnt.toNat ≤ 55 then 1 else 2) ∧
  (∀ (x : Ctx) (n : Nat), x.bufcnt.toNat = n % 64 →
    n / 64 + (finalBlocks x).length = (n + 9 + 63) / 64)

/-- R154: byte `4j + i` of a digest is byte `i` of `BE32bytes(H[j])`: bits `31 - 8i` down to
`24 - 8i` of `H[j]`; a digest is exactly 32 bytes. -/
def Obligations.DigestIsBigEndian : Prop :=
  ∀ (h : HashWords), (digestBytes h).length = 32 ∧
    ∀ (j : Fin 8) (i : Nat), i < 4 →
      ((digestBytes h).getD (4 * j.val + i) 0).toNat = h[j].toNat / 2 ^ (24 - 8 * i) % 256

/-- R55, R56, R237: FINAL reads nothing of host memory: on any other memory it writes the same 32
bytes. -/
def Obligations.FinalReadsNoMemory : Prop :=
  ∀ (s t t' : State) (c : CtxIdx) (a2 : Addr) (m : Memory), s.mem.wf → m.wf → s.code = 0 →
    exec (.final c a2) s = .next t → exec (.final c a2) { s with mem := m } = .next t' →
    t.code = t'.code ∧
      (t.code = 0 → ∀ i, i < 32 → t'.mem.read (a2.toNat + i) = t.mem.read (a2.toNat + i))

/-- R181: after a FINAL that completed, whatever commands run, no INIT of the context among them, a
second FINAL on it faults NOT_READY (unless the core was halted before, and then it does nothing);
and so does a first FINAL on a context that is not Ready. -/
def Obligations.ExactlyOneFinalPerInit : Prop :=
  (∀ (is : List Instr) (s s₁ t : State) (c : CtxIdx) (a2 a2' : Addr), s.code = 0 →
    exec (.final c a2) s = .next s₁ → s₁.code = 0 → Instr.init c ∉ is → runAll is s₁ = .next t →
    exec (.final c a2') t =
      .next (if t.code = 0 then faulted t 3 (256 * c.toNat + 3) (asAddr c) else t)) ∧
  (∀ (is : List Instr) (s t : State) (c : CtxIdx) (a2 : Addr), c.toNat < s.nctx →
    (s.ctx? c).map (·.phase) ≠ some .ready → Instr.init c ∉ is → runAll is s = .next t →
    exec (.final c a2) t =
      .next (if t.code = 0 then faulted t 3 (256 * c.toNat + 3) (asAddr c) else t))

/-! ## BLOCK and BLOCK_CTX (spec/43_oneshot.md) -/

/-- R57, R170, R171: BLOCK whose checks pass writes at `a2` the SHA-256 digest of the bytes the
message range held before the command, overlap or not; no named context, no other byte of memory and
no other register changes. -/
def Obligations.BlockWritesTheDigest : Prop :=
  ∀ (s : State) (a0 a1 a2 : Addr), s.code = 0 → s.mem.wf → dataOk s.cfg a0 a1 →
    8 * a1.toNat < 2 ^ 64 → digestOk s.cfg a2 →
    ∃ t, exec (.block a0 a1 a2) s = .next t ∧
      holdsBytes t.mem a2.toNat (sha256 (hostBytes s.mem a0 a1)) ∧
      sameOutside s.mem t.mem a2.toNat ∧ t.ctxs = s.ctxs ∧ sameControl s t

/-- R57, R175, R176: BLOCK_CTX whose checks pass, in any phase of the context, writes at `a2` the
SHA-256 digest of the bytes the message range held before and leaves the context Finalized; no other
context, no other byte of memory and no other register changes. -/
def Obligations.BlockCtxWritesTheDigest : Prop :=
  ∀ (s : State) (c : CtxIdx) (a0 a1 a2 : Addr), s.code = 0 → s.mem.wf → c.toNat < s.nctx →
    dataOk s.cfg a0 a1 → 8 * a1.toNat < 2 ^ 64 → digestOk s.cfg a2 →
    ∃ t y, exec (.blockCtx c a0 a1 a2) s = .next t ∧ t.ctx? c = some y ∧ y.phase = .finalized ∧
      holdsBytes t.mem a2.toNat (sha256 (hostBytes s.mem a0 a1)) ∧
      sameOutside s.mem t.mem a2.toNat ∧ sameOtherCtxs c s t ∧ sameControl s t ∧ t.scr = s.scr

/-- R148, R131, R150: INIT, any number of UPDATEs of any lengths, and FINAL complete and write the
SHA-256 digest of the concatenated chunks, whatever the context held before. -/
def Obligations.StreamingComputesSha256 : Prop :=
  ∀ (s : State) (c : CtxIdx) (chunks : List (Addr × Addr)) (a2 : Addr), s.code = 0 → s.mem.wf →
    c.toNat < s.nctx → (∀ p ∈ chunks, dataOk s.cfg p.1 p.2) →
    8 * (chunks.map fun p => p.2.toNat).sum < 2 ^ 64 → digestOk s.cfg a2 →
    ∃ t, runAll (.init c :: chunks.map (fun p => .update c p.1 p.2) ++ [.final c a2]) s = .next t ∧
      t.code = 0 ∧ (t.ctx? c).map (·.phase) = some .finalized ∧
      holdsBytes t.mem a2.toNat (sha256 (chunks.flatMap fun p => hostBytes s.mem p.1 p.2)) ∧
      sameOutside s.mem t.mem a2.toNat

/-- R172: BLOCK and INIT, UPDATE, FINAL from the same host memory write the same bytes whenever
neither faults, the context in any phase. -/
def Obligations.BlockAgreesWithTheSequence : Prop :=
  ∀ (s t t' : State) (c : CtxIdx) (a0 a1 a2 : Addr), s.code = 0 →
    exec (.block a0 a1 a2) s = .next t →
    runAll [.init c, .update c a0 a1, .final c a2] s = .next t' → t.code = 0 → t'.code = 0 →
    t.mem = t'.mem

/-- R177: BLOCK_CTX faults exactly where INIT, UPDATE, FINAL would, with the same code; where neither
faults they leave the same memory and the same phase, and where BLOCK_CTX faults it leaves the
contexts unchanged. -/
def Obligations.BlockCtxAgreesWithTheSequence : Prop :=
  ∀ (s t t' : State) (c : CtxIdx) (a0 a1 a2 : Addr), s.code = 0 →
    exec (.blockCtx c a0 a1 a2) s = .next t →
    runAll [.init c, .update c a0 a1, .final c a2] s = .next t' →
    t.code = t'.code ∧
      (if t.code = 0 then t.mem = t'.mem ∧ (t.ctx? c).map (·.phase) = (t'.ctx? c).map (·.phase)
       else t.ctxs = s.ctxs ∧ t.mem = s.mem)

/-- R180: the phase of a named context after a command that did not fault, for every command and
every phase before; UPDATE and FINAL of a context that is not Ready fault NOT_READY; a faulted command
changes no phase; a command that names another context, and BLOCK, leave the context unchanged. -/
def Obligations.PhasesFollowTheTable : Prop :=
  ∀ (i : Instr) (s t : State) (c : CtxIdx) (x y : Ctx), s.code = 0 → exec i s = .next t →
    s.ctx? c = some x → t.ctx? c = some y →
    (t.code = 0 → y.phase =
      match i with
      | .init d => if d = c then .ready else x.phase
      | .final d _ => if d = c then .finalized else x.phase
      | .blockCtx d _ _ _ => if d = c then .finalized else x.phase
      | .update _ _ _ => x.phase
      | .block _ _ _ => x.phase) ∧
    (t.code ≠ 0 → y.phase = x.phase) ∧ (namedCtx i ≠ some c → y = x) ∧
    (x.phase ≠ .ready →
      (∀ a0 a1, i = .update c a0 a1 → t.code = 3) ∧ (∀ a2, i = .final c a2 → t.code = 3))

/-! ## Whole-machine rules -/

/-- R7, R171, R176, R180: no command changes a context it does not name, nor the number of contexts,
the parameters or the host's events; and only BLOCK changes `SCR`. -/
def Obligations.ContextsShareNoState : Prop :=
  ∀ (i : Instr) (s t : State), exec i s = .next t →
    t.ctxs.length = s.ctxs.length ∧
    (∀ n, (namedCtx i).map (·.toNat) ≠ some n → t.ctxs[n]? = s.ctxs[n]?) ∧
    t.cfg = s.cfg ∧ t.host = s.host ∧
    ((∀ a0 a1 a2, i ≠ .block a0 a1 a2) → t.scr = s.scr)

/-- R55: the core writes nothing but the digest range of a command that has one: every other byte of
host memory, and all of it for INIT and UPDATE, reads as before. -/
def Obligations.OnlyTheDigestRangeIsWritten : Prop :=
  ∀ (i : Instr) (s t : State), exec i s = .next t →
    ∀ b, (∀ a2, digestAddr i = some a2 → b < a2.toNat ∨ a2.toNat + 32 ≤ b) →
      t.mem.read b = s.mem.read b

/-- R55, R56: a command that did not fault reads each byte of its message range exactly once in
increasing address order, and after every read writes each of its 32 digest bytes exactly once in
increasing address order; a command that faults accesses nothing.  The accesses are those of the
model's record `bus` (notes/assumptions/9.md). -/
def Obligations.AccessesAreOnceInOrderReadsFirst : Prop :=
  ∀ (i : Instr) (s t : State), s.code = 0 → exec i s = .next t →
    if t.code = 0 then
      ∃ ws : List Byte, ws.length = (if (digestAddr i).isSome then 32 else 0) ∧
        t.bus = s.bus ++
          (match messageRange i with
           | some (a0, a1) => (List.range a1.toNat).map fun k => BusAccess.read (a0.toNat + k)
           | none => []) ++
          (match digestAddr i with
           | some a2 => (List.range 32).map fun k => BusAccess.write (a2.toNat + k) (ws.getD k 0)
           | none => [])
    else t.bus = s.bus

/-- R51, R59: the core never accesses host memory outside the address space or outside a range
`MemValid` admits (the record `bus` of notes/assumptions/9.md). -/
def Obligations.AccessesAreAdmitted : Prop :=
  ∀ (i : Instr) (s t : State), exec i s = .next t →
    ∃ new : List BusAccess, t.bus = s.bus ++ new ∧
      (∀ a, .read a ∈ new → ∃ b n, b ≤ a ∧ a < b + n ∧ b + n ≤ 2 ^ s.cfg.aw ∧
        memValid s.cfg.memValid b n .read = true) ∧
      (∀ a v, .write a v ∈ new → ∃ b n, b ≤ a ∧ a < b + n ∧ b + n ≤ 2 ^ s.cfg.aw ∧
        memValid s.cfg.memValid b n .write = true)

/-- R22, R25, R28, R35: no command's visible effect depends on what the spec leaves unspecified: two
states that agree in all that is visible are taken by the same command to states that agree so. -/
def Obligations.UnspecifiedValuesAreNeverObserved : Prop :=
  ∀ (i : Instr) (s s' t t' : State), countsInRange s → countsInRange s' → visible s = visible s' →
    exec i s = .next t → exec i s' = .next t' → visible t = visible t'

/-- R131: INIT makes the context's earlier contents invisible: whatever other contents it had, the
state after INIT looks the same. -/
def Obligations.InitForgetsTheEarlierContents : Prop :=
  ∀ (s t t' : State) (c : CtxIdx) (y : Ctx), s.code = 0 → c.toNat < s.nctx →
    exec (.init c) s = .next t → exec (.init c) (s.setCtx c y) = .next t' → visible t = visible t'

/-- R36, D14: LAYOUT and CTX_MIN_SIZE change no rule: every command does the same under any others. -/
def Obligations.LayoutHasNoEffect : Prop :=
  ∀ (i : Instr) (s t : State) (l : Layout) (n : Nat), exec i s = .next t →
    exec i { s with cfg := { s.cfg with layout := l, ctxMinSize := n } } =
      .next { t with cfg := { t.cfg with layout := l, ctxMinSize := n } }

/-- R23, R24, R26, R27, R32, R33, R50: the invariant of the machine: every step keeps it, whatever
event the host raises. -/
def Obligations.StepKeepsTheInvariant : Prop :=
  ∀ s t : State, s.Inv → step s = .next t → t.Inv

/-- The invariant holds right after reset (at the parameters of notes/assumptions/3.md). -/
def Obligations.ResetMeetsTheInvariant : Prop := State.reset.Inv

/-! ## The block compressor (spec/41_compressor.md) -/

/-- R102: `IV[j]` is `floor(sqrt(p_j) × 2^32) mod 2^32` for the first eight primes. -/
def Obligations.InitialWordsAreSquareRoots : Prop :=
  ∀ j : Fin 8, ∃ n : Nat,
    n ^ 2 ≤ primes64.getD j.val 0 * 2 ^ 64 ∧ primes64.getD j.val 0 * 2 ^ 64 < (n + 1) ^ 2 ∧
    initialHash[j].toNat = n % 2 ^ 32

/-- R103: `K[t]` is `floor(cbrt(p_t) × 2^32) mod 2^32` for the first 64 primes. -/
def Obligations.RoundConstantsAreCubeRoots : Prop :=
  roundConstants.length = 64 ∧ ∀ t : Fin 64, ∃ n : Nat,
    n ^ 3 ≤ primes64.getD t.val 0 * 2 ^ 96 ∧ primes64.getD t.val 0 * 2 ^ 96 < (n + 1) ^ 3 ∧
    (roundConstants.getD t.val 0).toNat = n % 2 ^ 32

/-- R10, R52: `BE32bytes` gives the bytes of a word most significant first, `BE32` is its inverse on
both sides, and `BE64bytes` gives the eight bytes of a 64-bit value most significant first. -/
def Obligations.ByteOrderIsBigEndian : Prop :=
  (∀ w : Word, be32Bytes w = [w.extractLsb' 24 8, w.extractLsb' 16 8, w.extractLsb' 8 8,
    w.extractLsb' 0 8]) ∧
  (∀ b0 b1 b2 b3 : Byte, (be32 b0 b1 b2 b3).toNat =
    b0.toNat * 2 ^ 24 + b1.toNat * 2 ^ 16 + b2.toNat * 2 ^ 8 + b3.toNat) ∧
  (∀ b0 b1 b2 b3 : Byte, be32Bytes (be32 b0 b1 b2 b3) = [b0, b1, b2, b3]) ∧
  (∀ (v : BitVec 64) (i : Nat), i < 8 →
    ((be64Bytes v).getD i 0).toNat = v.toNat / 2 ^ (56 - 8 * i) % 256)

/-- R104: for `1 ≤ n ≤ 31`, `ROTR` moves bit `i` of the result from bit `(i + n) mod 32`, and `SHR`
divides by `2^n`. -/
def Obligations.RotateAndShift : Prop :=
  ∀ (x : Word) (n : Nat), 1 ≤ n → n ≤ 31 →
    (∀ i, i < 32 → (rotr x n).getLsbD i = x.getLsbD ((i + n) % 32)) ∧
    (shr x n).toNat = x.toNat / 2 ^ n

/-- R105, R106: each bit of `x` chooses the bit of `y` or of `z`; each bit of `Maj` is the majority of
the three. -/
def Obligations.ChoiceAndMajorityBitwise : Prop :=
  ∀ (x y z : Word) (i : Nat), i < 32 →
    (ch x y z).getLsbD i = (if x.getLsbD i then y.getLsbD i else z.getLsbD i) ∧
    (maj x y z).getLsbD i =
      decide (2 ≤ (x.getLsbD i).toNat + (y.getLsbD i).toNat + (z.getLsbD i).toNat)

/-- R107 to R110: the four sigma functions, as rotations and shifts of their amounts. -/
def Obligations.SigmaFunctions : Prop :=
  ∀ x : Word,
    bigSigma0 x = x.rotateRight 2 ^^^ x.rotateRight 13 ^^^ x.rotateRight 22 ∧
    bigSigma1 x = x.rotateRight 6 ^^^ x.rotateRight 11 ^^^ x.rotateRight 25 ∧
    smallSigma0 x = x.rotateRight 7 ^^^ x.rotateRight 18 ^^^ (x >>> 3) ∧
    smallSigma1 x = x.rotateRight 17 ^^^ x.rotateRight 19 ^^^ (x >>> 10)

/-- R111, R112: the schedule has 64 words; the first sixteen are the block's big-endian words, and
each later one follows the recurrence. -/
def Obligations.ScheduleFollowsTheRecurrence : Prop :=
  ∀ blk : Block, (schedule blk).length = 64 ∧
    (∀ t : Fin 16, ((schedule blk).getD t.val 0).toNat =
      blk[4 * t.val].toNat * 2 ^ 24 + blk[4 * t.val + 1].toNat * 2 ^ 16 +
        blk[4 * t.val + 2].toNat * 2 ^ 8 + blk[4 * t.val + 3].toNat) ∧
    (∀ t, 16 ≤ t → t < 64 → (schedule blk).getD t 0 =
      smallSigma1 ((schedule blk).getD (t - 2) 0) + (schedule blk).getD (t - 7) 0 +
        smallSigma0 ((schedule blk).getD (t - 15) 0) + (schedule blk).getD (t - 16) 0)

/-- R113, R114: COMPRESS is 64 rounds, round `t` with `K[t]` and `W[t]` from the working variables
`H[0..7]`, and the final addition. -/
def Obligations.CompressIsSixtyFourRounds : Prop :=
  ∀ (h : HashWords) (blk : Block), ∃ v : Nat → Work,
    v 0 = ⟨h[0], h[1], h[2], h[3], h[4], h[5], h[6], h[7]⟩ ∧
    (∀ t, t < 64 → ∃ t1 t2 : Word,
      t1 = (v t).h + bigSigma1 (v t).e + ch (v t).e (v t).f (v t).g + roundConstants.getD t 0 +
        (schedule blk).getD t 0 ∧
      t2 = bigSigma0 (v t).a + maj (v t).a (v t).b (v t).c ∧
      v (t + 1) = ⟨t1 + t2, (v t).a, (v t).b, (v t).c, (v t).d + t1, (v t).e, (v t).f, (v t).g⟩) ∧
    compress h blk =
      #v[h[0] + (v 64).a, h[1] + (v 64).b, h[2] + (v 64).c, h[3] + (v 64).d,
         h[4] + (v 64).e, h[5] + (v 64).f, h[6] + (v 64).g, h[7] + (v 64).h]
end

