-- ==== Sys2Proof/Laws/State.lean ====
section
/-! SUPPORT. One lemma per field of State per update, true by rfl, so that no proof unfolds a record
update; and what each update does to the reads a command makes. -/

namespace Sys2Proof.Machine

variable (s : State)

@[simp] theorem State.setMem_cfg (m : Memory) : (s.setMem m).cfg = s.cfg := rfl
@[simp] theorem State.setMem_ctxs (m : Memory) : (s.setMem m).ctxs = s.ctxs := rfl
@[simp] theorem State.setMem_scr (m : Memory) : (s.setMem m).scr = s.scr := rfl
@[simp] theorem State.setMem_code (m : Memory) : (s.setMem m).code = s.code := rfl
@[simp] theorem State.setMem_fcmd (m : Memory) : (s.setMem m).fcmd = s.fcmd := rfl
@[simp] theorem State.setMem_farg (m : Memory) : (s.setMem m).farg = s.farg := rfl
@[simp] theorem State.setMem_mem (m : Memory) : (s.setMem m).mem = m := rfl
@[simp] theorem State.setMem_host (m : Memory) : (s.setMem m).host = s.host := rfl
@[simp] theorem State.setMem_bus (m : Memory) : (s.setMem m).bus = s.bus := rfl
@[simp] theorem State.setMem_draws (m : Memory) : (s.setMem m).draws = s.draws := rfl

@[simp] theorem State.setHost_cfg (es : List HostEvent) : (s.setHost es).cfg = s.cfg := rfl
@[simp] theorem State.setHost_ctxs (es : List HostEvent) : (s.setHost es).ctxs = s.ctxs := rfl
@[simp] theorem State.setHost_scr (es : List HostEvent) : (s.setHost es).scr = s.scr := rfl
@[simp] theorem State.setHost_code (es : List HostEvent) : (s.setHost es).code = s.code := rfl
@[simp] theorem State.setHost_fcmd (es : List HostEvent) : (s.setHost es).fcmd = s.fcmd := rfl
@[simp] theorem State.setHost_farg (es : List HostEvent) : (s.setHost es).farg = s.farg := rfl
@[simp] theorem State.setHost_mem (es : List HostEvent) : (s.setHost es).mem = s.mem := rfl
@[simp] theorem State.setHost_host (es : List HostEvent) : (s.setHost es).host = es := rfl
@[simp] theorem State.setHost_bus (es : List HostEvent) : (s.setHost es).bus = s.bus := rfl
@[simp] theorem State.setHost_draws (es : List HostEvent) : (s.setHost es).draws = s.draws := rfl

@[simp] theorem State.noteReads_cfg (a0 a1 : Addr) : (s.noteReads a0 a1).cfg = s.cfg := rfl
@[simp] theorem State.noteReads_ctxs (a0 a1 : Addr) : (s.noteReads a0 a1).ctxs = s.ctxs := rfl
@[simp] theorem State.noteReads_scr (a0 a1 : Addr) : (s.noteReads a0 a1).scr = s.scr := rfl
@[simp] theorem State.noteReads_code (a0 a1 : Addr) : (s.noteReads a0 a1).code = s.code := rfl
@[simp] theorem State.noteReads_fcmd (a0 a1 : Addr) : (s.noteReads a0 a1).fcmd = s.fcmd := rfl
@[simp] theorem State.noteReads_farg (a0 a1 : Addr) : (s.noteReads a0 a1).farg = s.farg := rfl
@[simp] theorem State.noteReads_mem (a0 a1 : Addr) : (s.noteReads a0 a1).mem = s.mem := rfl
@[simp] theorem State.noteReads_host (a0 a1 : Addr) : (s.noteReads a0 a1).host = s.host := rfl
@[simp] theorem State.noteReads_bus (a0 a1 : Addr) :
    (s.noteReads a0 a1).bus = s.bus ++ busReads a0 a1 := rfl
@[simp] theorem State.noteReads_draws (a0 a1 : Addr) : (s.noteReads a0 a1).draws = s.draws := rfl

@[simp] theorem State.writeOut_cfg (a2 : Addr) (v : List Byte) :
    (s.writeOut a2 v).cfg = s.cfg := rfl
@[simp] theorem State.writeOut_ctxs (a2 : Addr) (v : List Byte) :
    (s.writeOut a2 v).ctxs = s.ctxs := rfl
@[simp] theorem State.writeOut_scr (a2 : Addr) (v : List Byte) :
    (s.writeOut a2 v).scr = s.scr := rfl
@[simp] theorem State.writeOut_code (a2 : Addr) (v : List Byte) :
    (s.writeOut a2 v).code = s.code := rfl
@[simp] theorem State.writeOut_fcmd (a2 : Addr) (v : List Byte) :
    (s.writeOut a2 v).fcmd = s.fcmd := rfl
@[simp] theorem State.writeOut_farg (a2 : Addr) (v : List Byte) :
    (s.writeOut a2 v).farg = s.farg := rfl
@[simp] theorem State.writeOut_mem (a2 : Addr) (v : List Byte) :
    (s.writeOut a2 v).mem = s.mem.writeBytes a2.toNat v := rfl
@[simp] theorem State.writeOut_host (a2 : Addr) (v : List Byte) :
    (s.writeOut a2 v).host = s.host := rfl
@[simp] theorem State.writeOut_bus (a2 : Addr) (v : List Byte) :
    (s.writeOut a2 v).bus = s.bus ++ busWrites a2.toNat v := rfl
@[simp] theorem State.writeOut_draws (a2 : Addr) (v : List Byte) :
    (s.writeOut a2 v).draws = s.draws := rfl

@[simp] theorem State.setCtx_cfg (c : CtxIdx) (x : Ctx) : (s.setCtx c x).cfg = s.cfg := rfl
@[simp] theorem State.setCtx_ctxs (c : CtxIdx) (x : Ctx) :
    (s.setCtx c x).ctxs = s.ctxs.set c.toNat x := rfl
@[simp] theorem State.setCtx_scr (c : CtxIdx) (x : Ctx) : (s.setCtx c x).scr = s.scr := rfl
@[simp] theorem State.setCtx_code (c : CtxIdx) (x : Ctx) : (s.setCtx c x).code = s.code := rfl
@[simp] theorem State.setCtx_fcmd (c : CtxIdx) (x : Ctx) : (s.setCtx c x).fcmd = s.fcmd := rfl
@[simp] theorem State.setCtx_farg (c : CtxIdx) (x : Ctx) : (s.setCtx c x).farg = s.farg := rfl
@[simp] theorem State.setCtx_mem (c : CtxIdx) (x : Ctx) : (s.setCtx c x).mem = s.mem := rfl
@[simp] theorem State.setCtx_host (c : CtxIdx) (x : Ctx) : (s.setCtx c x).host = s.host := rfl
@[simp] theorem State.setCtx_bus (c : CtxIdx) (x : Ctx) : (s.setCtx c x).bus = s.bus := rfl
@[simp] theorem State.setCtx_draws (c : CtxIdx) (x : Ctx) : (s.setCtx c x).draws = s.draws := rfl

@[simp] theorem State.setScr_cfg (x : Ctx) : (s.setScr x).cfg = s.cfg := rfl
@[simp] theorem State.setScr_ctxs (x : Ctx) : (s.setScr x).ctxs = s.ctxs := rfl
@[simp] theorem State.setScr_scr (x : Ctx) : (s.setScr x).scr = x := rfl
@[simp] theorem State.setScr_code (x : Ctx) : (s.setScr x).code = s.code := rfl
@[simp] theorem State.setScr_fcmd (x : Ctx) : (s.setScr x).fcmd = s.fcmd := rfl
@[simp] theorem State.setScr_farg (x : Ctx) : (s.setScr x).farg = s.farg := rfl
@[simp] theorem State.setScr_mem (x : Ctx) : (s.setScr x).mem = s.mem := rfl
@[simp] theorem State.setScr_host (x : Ctx) : (s.setScr x).host = s.host := rfl
@[simp] theorem State.setScr_bus (x : Ctx) : (s.setScr x).bus = s.bus := rfl
@[simp] theorem State.setScr_draws (x : Ctx) : (s.setScr x).draws = s.draws := rfl

@[simp] theorem State.tick_cfg : (s.tick).cfg = s.cfg := rfl
@[simp] theorem State.tick_ctxs : (s.tick).ctxs = s.ctxs := rfl
@[simp] theorem State.tick_scr : (s.tick).scr = s.scr := rfl
@[simp] theorem State.tick_code : (s.tick).code = s.code := rfl
@[simp] theorem State.tick_fcmd : (s.tick).fcmd = s.fcmd := rfl
@[simp] theorem State.tick_farg : (s.tick).farg = s.farg := rfl
@[simp] theorem State.tick_mem : (s.tick).mem = s.mem := rfl
@[simp] theorem State.tick_host : (s.tick).host = s.host := rfl
@[simp] theorem State.tick_bus : (s.tick).bus = s.bus := rfl
@[simp] theorem State.tick_draws : (s.tick).draws = s.draws + 1 := rfl

@[simp] theorem State.raise_cfg (k : FaultCode) (w : Word) (v : Addr) :
    (s.raise k w v).cfg = s.cfg := rfl
@[simp] theorem State.raise_ctxs (k : FaultCode) (w : Word) (v : Addr) :
    (s.raise k w v).ctxs = s.ctxs := rfl
@[simp] theorem State.raise_scr (k : FaultCode) (w : Word) (v : Addr) :
    (s.raise k w v).scr = s.scr := rfl
@[simp] theorem State.raise_code (k : FaultCode) (w : Word) (v : Addr) :
    (s.raise k w v).code = k.bits := rfl
@[simp] theorem State.raise_fcmd (k : FaultCode) (w : Word) (v : Addr) :
    (s.raise k w v).fcmd = w := rfl
@[simp] theorem State.raise_farg (k : FaultCode) (w : Word) (v : Addr) :
    (s.raise k w v).farg = v := rfl
@[simp] theorem State.raise_mem (k : FaultCode) (w : Word) (v : Addr) :
    (s.raise k w v).mem = s.mem := rfl
@[simp] theorem State.raise_host (k : FaultCode) (w : Word) (v : Addr) :
    (s.raise k w v).host = s.host := rfl
@[simp] theorem State.raise_bus (k : FaultCode) (w : Word) (v : Addr) :
    (s.raise k w v).bus = s.bus := rfl
@[simp] theorem State.raise_draws (k : FaultCode) (w : Word) (v : Addr) :
    (s.raise k w v).draws = s.draws := rfl

@[simp] theorem State.coreReset_cfg : (s.coreReset).cfg = s.cfg := rfl
@[simp] theorem State.coreReset_ctxs :
    (s.coreReset).ctxs =
      (List.range s.nctx).map fun c => Ctx.drawn (s.draws + c) .uninitialized := rfl
@[simp] theorem State.coreReset_scr :
    (s.coreReset).scr = Ctx.drawn (s.draws + s.nctx) .uninitialized := rfl
@[simp] theorem State.coreReset_code : (s.coreReset).code = 0 := rfl
@[simp] theorem State.coreReset_fcmd : (s.coreReset).fcmd = 0 := rfl
@[simp] theorem State.coreReset_farg : (s.coreReset).farg = 0 := rfl
@[simp] theorem State.coreReset_mem : (s.coreReset).mem = s.mem := rfl
@[simp] theorem State.coreReset_host : (s.coreReset).host = s.host := rfl
@[simp] theorem State.coreReset_bus : (s.coreReset).bus = s.bus := rfl
@[simp] theorem State.coreReset_draws : (s.coreReset).draws = s.draws + s.nctx + 1 := rfl

@[simp] theorem State.setMem_nctx (m : Memory) : (s.setMem m).nctx = s.nctx := rfl
@[simp] theorem State.setMem_ctx? (m : Memory) (d : CtxIdx) : (s.setMem m).ctx? d = s.ctx? d := rfl
@[simp] theorem State.setMem_halted (m : Memory) : (s.setMem m).halted = s.halted := rfl
@[simp] theorem State.setHost_nctx (es : List HostEvent) : (s.setHost es).nctx = s.nctx := rfl
@[simp] theorem State.setHost_ctx? (es : List HostEvent) (d : CtxIdx) : (s.setHost es).ctx? d = s.ctx? d := rfl
@[simp] theorem State.setHost_message (es : List HostEvent) (p q : Addr) :
    (s.setHost es).message p q = s.message p q := rfl
@[simp] theorem State.setHost_halted (es : List HostEvent) : (s.setHost es).halted = s.halted := rfl
@[simp] theorem State.noteReads_nctx (a0 a1 : Addr) : (s.noteReads a0 a1).nctx = s.nctx := rfl
@[simp] theorem State.noteReads_ctx? (a0 a1 : Addr) (d : CtxIdx) : (s.noteReads a0 a1).ctx? d = s.ctx? d := rfl
@[simp] theorem State.noteReads_message (a0 a1 : Addr) (p q : Addr) :
    (s.noteReads a0 a1).message p q = s.message p q := rfl
@[simp] theorem State.noteReads_halted (a0 a1 : Addr) : (s.noteReads a0 a1).halted = s.halted := rfl
@[simp] theorem State.writeOut_nctx (a2 : Addr) (v : List Byte) : (s.writeOut a2 v).nctx = s.nctx := rfl
@[simp] theorem State.writeOut_ctx? (a2 : Addr) (v : List Byte) (d : CtxIdx) : (s.writeOut a2 v).ctx? d = s.ctx? d := rfl
@[simp] theorem State.writeOut_halted (a2 : Addr) (v : List Byte) : (s.writeOut a2 v).halted = s.halted := rfl
@[simp] theorem State.setCtx_message (c : CtxIdx) (x : Ctx) (p q : Addr) :
    (s.setCtx c x).message p q = s.message p q := rfl
@[simp] theorem State.setCtx_halted (c : CtxIdx) (x : Ctx) : (s.setCtx c x).halted = s.halted := rfl
@[simp] theorem State.setScr_nctx (x : Ctx) : (s.setScr x).nctx = s.nctx := rfl
@[simp] theorem State.setScr_ctx? (x : Ctx) (d : CtxIdx) : (s.setScr x).ctx? d = s.ctx? d := rfl
@[simp] theorem State.setScr_message (x : Ctx) (p q : Addr) :
    (s.setScr x).message p q = s.message p q := rfl
@[simp] theorem State.setScr_halted (x : Ctx) : (s.setScr x).halted = s.halted := rfl
@[simp] theorem State.tick_nctx : (s.tick).nctx = s.nctx := rfl
@[simp] theorem State.tick_ctx? (d : CtxIdx) : (s.tick).ctx? d = s.ctx? d := rfl
@[simp] theorem State.tick_message (p q : Addr) :
    (s.tick).message p q = s.message p q := rfl
@[simp] theorem State.tick_halted : (s.tick).halted = s.halted := rfl
@[simp] theorem State.raise_nctx (k : FaultCode) (w : Word) (v : Addr) : (s.raise k w v).nctx = s.nctx := rfl
@[simp] theorem State.raise_ctx? (k : FaultCode) (w : Word) (v : Addr) (d : CtxIdx) : (s.raise k w v).ctx? d = s.ctx? d := rfl
@[simp] theorem State.raise_message (k : FaultCode) (w : Word) (v : Addr) (p q : Addr) :
    (s.raise k w v).message p q = s.message p q := rfl

@[simp] theorem State.setCtx_nctx (c : CtxIdx) (x : Ctx) : (s.setCtx c x).nctx = s.nctx := by
  simp [State.nctx]

@[simp] theorem State.coreReset_nctx : s.coreReset.nctx = s.nctx := by
  simp [State.nctx]

/-- Writing `ctx[c]` and reading `ctx[d]` (R7). -/
theorem State.setCtx_ctx? (c d : CtxIdx) (x : Ctx) :
    (s.setCtx c x).ctx? d = if d = c then (if c.toNat < s.nctx then some x else none) else s.ctx? d := by
  by_cases h : d = c
  · subst h
    by_cases hc : d.toNat < s.ctxs.length <;> simp [State.ctx?, State.nctx, hc]
  · have : c.toNat ≠ d.toNat := fun e => h (BitVec.eq_of_toNat_eq e.symm)
    simp [State.ctx?, h, List.getElem?_set_ne this]

/-- `ctx[c]` exists exactly for `c < NCTX` (R7, R72). -/
theorem State.ctx?_eq_none_iff (c : CtxIdx) : s.ctx? c = none ↔ s.nctx ≤ c.toNat := by
  simp [State.ctx?, State.nctx]

theorem State.lt_of_ctx? {s : State} {c : CtxIdx} {x : Ctx} (h : s.ctx? c = some x) :
    c.toNat < s.nctx := by
  by_contra hc
  have := (s.ctx?_eq_none_iff c).2 (by omega)
  simp_all

theorem State.exists_ctx? {s : State} {c : CtxIdx} (h : c.toNat < s.nctx) :
    ∃ x, s.ctx? c = some x := by
  cases hx : s.ctx? c with
  | some x => exact ⟨x, rfl⟩
  | none => exact absurd ((s.ctx?_eq_none_iff c).1 hx) (by omega)

theorem State.onCtx_some {s : State} {c : CtxIdx} {x : Ctx} (f : Ctx → State)
    (h : s.ctx? c = some x) : s.onCtx c f = f x := by
  simp [State.onCtx, h]

theorem State.halted_iff : s.halted = true ↔ s.code ≠ 0 := by simp [State.halted]

theorem State.not_halted_iff : s.halted = false ↔ s.code = 0 := by simp [State.halted]

end Sys2Proof.Machine
end

