-- ==== Sys2Proof/Laws/Memory.lean ====
section
/-! SUPPORT. Host memory: read after write, and every memory operation keeps the canonical form. -/

namespace Sys2Proof.Machine

/-- Every listed address is at or above `lo`. -/
theorem Memory.write_ge {m : Memory} {a lo : Nat} {v : Byte} (h : ∀ x ∈ m, lo ≤ x.1) (ha : lo ≤ a) :
    ∀ x ∈ m.write a v, lo ≤ x.1 := by
  induction m with
  | nil =>
    intro x hx
    simp only [Memory.write] at hx
    split at hx <;> simp_all
  | cons c m ih =>
    obtain ⟨b, w⟩ := c
    have hb : lo ≤ b := h (b, w) (by simp)
    have ht : ∀ x ∈ m, lo ≤ x.1 := fun x hx => h x (by simp [hx])
    intro x hx
    simp only [Memory.write] at hx
    split at hx
    · split at hx
      · exact h x hx
      · rcases List.mem_cons.1 hx with rfl | hx
        · exact ha
        · exact h x hx
    · split at hx
      · split at hx
        · exact ht x hx
        · rcases List.mem_cons.1 hx with rfl | hx
          · exact ha
          · exact ht x hx
      · rcases List.mem_cons.1 hx with rfl | hx
        · exact hb
        · exact ih ht x hx

/-- Every listed address stays below a bound that the written address is below. -/
theorem Memory.write_lt {m : Memory} {a hi : Nat} {v : Byte} (h : ∀ x ∈ m, x.1 < hi) (ha : a < hi) :
    ∀ x ∈ m.write a v, x.1 < hi := by
  induction m with
  | nil =>
    intro x hx
    simp only [Memory.write] at hx
    split at hx <;> simp_all
  | cons c m ih =>
    obtain ⟨b, w⟩ := c
    have hb : b < hi := h (b, w) (by simp)
    have ht : ∀ x ∈ m, x.1 < hi := fun x hx => h x (by simp [hx])
    intro x hx
    simp only [Memory.write] at hx
    split at hx
    · split at hx
      · exact h x hx
      · rcases List.mem_cons.1 hx with rfl | hx
        · exact ha
        · exact h x hx
    · split at hx
      · split at hx
        · exact ht x hx
        · rcases List.mem_cons.1 hx with rfl | hx
          · exact ha
          · exact ht x hx
      · rcases List.mem_cons.1 hx with rfl | hx
        · exact hb
        · exact ih ht x hx

/-- A write keeps the canonical form. -/
theorem Memory.write_wf {m : Memory} (h : m.wf) (a : Nat) (v : Byte) : (m.write a v).wf := by
  induction m with
  | nil =>
    simp only [Memory.write]
    split
    · exact h
    · next hv => exact ⟨by simp, by simpa using hv⟩
  | cons c m ih =>
    obtain ⟨b, w⟩ := c
    obtain ⟨hp, hn⟩ := h
    rw [List.pairwise_cons] at hp
    have hm : Memory.wf m := ⟨hp.2, fun x hx => hn x (by simp [hx])⟩
    have hw : w ≠ Memory.unlisted := hn (b, w) (by simp)
    simp only [Memory.write]
    split
    · next hab =>
      split
      · exact ⟨List.pairwise_cons.2 hp, hn⟩
      · next hv =>
        refine ⟨List.pairwise_cons.2 ⟨?_, List.pairwise_cons.2 hp⟩, ?_⟩
        · intro x hx
          rcases List.mem_cons.1 hx with rfl | hx
          · exact hab
          · exact lt_trans hab (hp.1 x hx)
        · intro x hx
          rcases List.mem_cons.1 hx with rfl | hx
          · exact hv
          · exact hn x hx
    · next hab =>
      split
      · next heq =>
        subst heq
        split
        · exact hm
        · next hv =>
          refine ⟨List.pairwise_cons.2 ⟨hp.1, hp.2⟩, ?_⟩
          intro x hx
          rcases List.mem_cons.1 hx with rfl | hx
          · exact hv
          · exact hm.2 x hx
      · next hne =>
        have hlt : b < a := by omega
        obtain ⟨ihp, ihn⟩ := ih hm
        refine ⟨List.pairwise_cons.2 ⟨?_, ihp⟩, ?_⟩
        · intro x hx
          exact Memory.write_ge (lo := b + 1) (fun y hy => hp.1 y hy) hlt x hx
        · intro x hx
          rcases List.mem_cons.1 hx with rfl | hx
          · exact hw
          · exact ihn x hx

theorem Memory.read_of_lt {m : Memory} {a : Nat} (h : ∀ x ∈ m, a < x.1) :
    m.read a = Memory.unlisted := by
  induction m with
  | nil => rfl
  | cons c m ih =>
    obtain ⟨b, w⟩ := c
    have hb : a < b := h (b, w) (by simp)
    simp only [Memory.read, if_neg (by omega : ¬ a = b)]
    exact ih fun x hx => h x (by simp [hx])

/-- A write leaves every other address as it was, in any memory. -/
theorem Memory.read_write_ne (m : Memory) {a b : Nat} (v : Byte) (hne : b ≠ a) :
    (m.write a v).read b = m.read b := by
  induction m with
  | nil =>
    simp only [Memory.write]
    split <;> simp [Memory.read, hne]
  | cons c m ih =>
    obtain ⟨d, w⟩ := c
    simp only [Memory.write]
    split
    · split <;> simp [Memory.read, hne]
    · split
      · next heq =>
        subst heq
        split <;> simp [Memory.read, hne]
      · simp only [Memory.read, ih]

/-- A write reads back, in canonical memory. -/
theorem Memory.read_write_self {m : Memory} (h : m.wf) (a : Nat) (v : Byte) :
    (m.write a v).read a = v := by
  induction m with
  | nil =>
    simp only [Memory.write]
    split <;> simp_all [Memory.read]
  | cons c m ih =>
    obtain ⟨d, w⟩ := c
    obtain ⟨hp, hn⟩ := h
    rw [List.pairwise_cons] at hp
    have hm : Memory.wf m := ⟨hp.2, fun x hx => hn x (by simp [hx])⟩
    simp only [Memory.write]
    split
    · next had =>
      split
      · next hv =>
        rw [hv]
        refine Memory.read_of_lt fun x hx => ?_
        rcases List.mem_cons.1 hx with rfl | hx
        · exact had
        · exact lt_trans had (hp.1 x hx)
      · simp [Memory.read]
    · split
      · next heq =>
        subst heq
        split
        · next hv => rw [hv]; exact Memory.read_of_lt hp.1
        · simp [Memory.read]
      · next hne =>
        simp only [Memory.read, if_neg hne]
        exact ih hm

theorem Memory.writeBytes_wf {m : Memory} (h : m.wf) (a : Nat) (vs : List Byte) :
    (m.writeBytes a vs).wf := by
  induction vs generalizing m a with
  | nil => exact h
  | cons v vs ih => exact ih (Memory.write_wf h a v) (a + 1)

theorem Memory.writeBytes_lt {m : Memory} {hi : Nat} (h : ∀ x ∈ m, x.1 < hi) (a : Nat)
    (vs : List Byte) (ha : a + vs.length ≤ hi) : ∀ x ∈ m.writeBytes a vs, x.1 < hi := by
  induction vs generalizing m a with
  | nil => exact h
  | cons v vs ih =>
    simp only [List.length_cons] at ha
    exact ih (Memory.write_lt h (by omega)) (a + 1) (by omega)

/-- A byte outside the written range reads as before (R55). -/
theorem Memory.read_writeBytes_outside (m : Memory) (a b : Nat) (vs : List Byte)
    (hb : b < a ∨ a + vs.length ≤ b) : (m.writeBytes a vs).read b = m.read b := by
  induction vs generalizing m a with
  | nil => rfl
  | cons v vs ih =>
    simp only [List.length_cons] at hb
    simp only [Memory.writeBytes]
    rw [ih _ (a + 1) (by omega), Memory.read_write_ne _ _ (by omega)]

/-- Byte `i` written reads back (R11). -/
theorem Memory.read_writeBytes_inside {m : Memory} (h : m.wf) (a i : Nat) (vs : List Byte)
    (hi : i < vs.length) : (m.writeBytes a vs).read (a + i) = vs[i] := by
  induction vs generalizing m a i with
  | nil => simp at hi
  | cons v vs ih =>
    simp only [Memory.writeBytes]
    cases i with
    | zero =>
      rw [Memory.read_writeBytes_outside _ _ _ _ (by omega),
        Nat.add_zero, Memory.read_write_self h]
      simp
    | succ i =>
      have := ih (Memory.write_wf h a v) (a + 1) i (by simpa using hi)
      simpa [Nat.add_assoc, Nat.add_comm 1 i] using this

theorem State.message_length (s : State) (a0 a1 : Addr) : (s.message a0 a1).length = a1.toNat := by
  simp [State.message, messageAddrs]

/-- The memory of the machine right after reset is in canonical form. -/
theorem State.reset_mem_wf : State.reset.mem.wf := by decide

end Sys2Proof.Machine
end

