-- ==== Sys2Proof/Laws/Commands.lean ====
section
/-! SUPPORT. What a command can do, once for all five: the checks, `attempt`, and one inversion lemma
for `exec`, which later proofs cite instead of unfolding a meaning. -/

namespace Sys2Proof.Machine

/-! ## The checks -/

@[simp] theorem require_true (k : FaultCode) (v : Addr) : require true k v = none := rfl

@[simp] theorem require_false (k : FaultCode) (v : Addr) : require false k v = some ⟨k, v⟩ := rfl

theorem require_eq_none {ok : Bool} {k : FaultCode} {v : Addr} :
    require ok k v = none ↔ ok = true := by
  cases ok <;> simp

theorem require_eq_some {ok : Bool} {k : FaultCode} {v : Addr} {w : Violation} :
    require ok k v = some w ↔ ok = false ∧ w = ⟨k, v⟩ := by
  cases ok <;> simp [eq_comm]

@[simp] theorem firstViolation_nil : firstViolation [] = none := rfl

@[simp] theorem firstViolation_some (v : Violation) (l : List (Option Violation)) :
    firstViolation (some v :: l) = some v := rfl

@[simp] theorem firstViolation_none (l : List (Option Violation)) :
    firstViolation (none :: l) = firstViolation l := rfl

/-- No violation is found exactly when every check passes (R202). -/
theorem firstViolation_eq_none {l : List (Option Violation)} :
    firstViolation l = none ↔ ∀ c ∈ l, c = none := by
  induction l with
  | nil => simp
  | cons c l ih => cases c <;> simp [ih]

/-- A violation found is one of the checks. -/
theorem firstViolation_mem {l : List (Option Violation)} {v : Violation}
    (h : firstViolation l = some v) : some v ∈ l := by
  induction l with
  | nil => simp at h
  | cons c l ih =>
    cases c with
    | none => exact List.mem_cons_of_mem _ (ih (by simpa using h))
    | some w => simp_all

theorem checkContext_eq_none {s : State} {c : CtxIdx} :
    checkContext s c = none ↔ c.toNat < s.nctx := by
  simp [checkContext, require_eq_none]

theorem checkReady_eq_none {s : State} {c : CtxIdx} :
    checkReady s c = none ↔ (s.ctx? c).map (·.phase) = some .ready := by
  rw [checkReady, require_eq_none, decide_eq_true_iff]

theorem checkNull_eq_none {a0 a1 : Addr} : checkNull a0 a1 = none ↔ (a1 = 0 ∨ a0 ≠ 0) := by
  rw [checkNull, require_eq_none, decide_eq_true_iff]

theorem rangeAdmitted_iff {p : Params} {a : Addr} {n : Nat} {k : AccessKind} :
    rangeAdmitted p a n k = true ↔
      a.toNat + n ≤ 2 ^ p.aw ∧ memValid p.memValid a.toNat n k = true := by
  simp [rangeAdmitted]

theorem checkData_eq_none {p : Params} {a0 a1 : Addr} :
    checkData p a0 a1 = none ↔ (a1 = 0 ∨ rangeAdmitted p a0 a1.toNat .read = true) := by
  simp [checkData, require_eq_none]

theorem checkLength_eq_none {n : Nat} {a1 : Addr} :
    checkLength n a1 = none ↔ n + 8 * a1.toNat < 2 ^ 64 := by
  simp [checkLength, require_eq_none]

theorem checkDigest_eq_none {p : Params} {a2 : Addr} :
    checkDigest p a2 = none ↔ (a2 ≠ 0 ∧ rangeAdmitted p a2 32 .write = true) := by
  simp [checkDigest, require_eq_none]

theorem State.bitsOf_some {s : State} {c : CtxIdx} {x : Ctx} (h : s.ctx? c = some x) :
    s.bitsOf c = x.bitcnt.toNat := by
  simp [State.bitsOf, h]

/-! ## One attempt -/

theorem attempt_halted {cmd : Word} {cs : List (Option Violation)} {f : State → State} {s : State}
    (h : s.halted = true) : attempt cmd cs f s = s := by
  simp [attempt, h]

theorem attempt_fault {cmd : Word} {cs : List (Option Violation)} {f : State → State} {s : State}
    {v : Violation} (h : s.halted = false) (hv : firstViolation cs = some v) :
    attempt cmd cs f s = s.raise v.code cmd v.arg := by
  simp [attempt, h, hv]

theorem attempt_effect {cmd : Word} {cs : List (Option Violation)} {f : State → State} {s : State}
    (h : s.halted = false) (hv : firstViolation cs = none) : attempt cmd cs f s = f s := by
  simp [attempt, h, hv]

/-! ## Every command at once -/

/-- The checks of a command, in the order of R202. -/
def checksOf (s : State) : Instr → List (Option Violation)
  | .init c => [checkContext s c]
  | .update c a0 a1 =>
    [checkContext s c, checkReady s c, checkNull a0 a1, checkData s.cfg a0 a1,
     checkLength (s.bitsOf c) a1]
  | .final c a2 => [checkContext s c, checkReady s c, checkDigest s.cfg a2]
  | .block a0 a1 a2 =>
    [checkNull a0 a1, checkData s.cfg a0 a1, checkLength 0 a1, checkDigest s.cfg a2]
  | .blockCtx c a0 a1 a2 =>
    [checkContext s c, checkNull a0 a1, checkData s.cfg a0 a1, checkLength 0 a1,
     checkDigest s.cfg a2]

/-- The effect of a command whose checks pass. -/
def effectOf : Instr → State → State
  | .init c => initEffect c
  | .update c a0 a1 => updateEffect c a0 a1
  | .final c a2 => finalEffect c a2
  | .block a0 a1 a2 => blockEffect a0 a1 a2
  | .blockCtx c a0 a1 a2 => blockCtxEffect c a0 a1 a2

/-- Every command is one attempt (R202, R203). -/
theorem exec_eq (i : Instr) (s : State) :
    exec i s = .next (attempt (encode i).cmd (checksOf s i) (effectOf i) s) := by
  cases i <;> rfl

/-- The inversion lemma: a halted core does nothing, a failed check is taken as a fault, and otherwise
the effect happens. -/
theorem exec_inv {i : Instr} {s t : State} (h : exec i s = .next t) :
    (s.halted = true ∧ t = s) ∨
    (s.halted = false ∧ ∃ v, firstViolation (checksOf s i) = some v ∧
      t = s.raise v.code (encode i).cmd v.arg) ∨
    (s.halted = false ∧ firstViolation (checksOf s i) = none ∧ t = effectOf i s) := by
  rw [exec_eq] at h
  cases hh : s.halted with
  | true => exact .inl ⟨rfl, by simpa [attempt_halted hh] using h.symm⟩
  | false =>
    cases hv : firstViolation (checksOf s i) with
    | some v =>
      exact .inr (.inl ⟨rfl, v, rfl, by simpa [attempt_fault hh hv] using h.symm⟩)
    | none => exact .inr (.inr ⟨rfl, rfl, by simpa [attempt_effect hh hv] using h.symm⟩)

theorem FaultCode.bits_ne_zero (k : FaultCode) : k.bits ≠ 0 := by cases k <;> decide

theorem FaultCode.bits_range (k : FaultCode) : 1 ≤ k.bits.toNat ∧ k.bits.toNat ≤ 7 := by
  cases k <;> decide

/-! ## What each effect can do, on the context it names -/

theorem initEffect_some {s : State} {c : CtxIdx} {x : Ctx} (h : s.ctx? c = some x) :
    initEffect c s = s.setCtx c (initBody s.cfg.shaMagic x) := State.onCtx_some _ h

theorem updateEffect_zero (s : State) (c : CtxIdx) (a0 : Addr) : updateEffect c a0 0 s = s := by
  simp [updateEffect]

theorem updateEffect_some {s : State} {c : CtxIdx} {x : Ctx} {a0 a1 : Addr} (h0 : a1 ≠ 0)
    (h : s.ctx? c = some x) :
    updateEffect c a0 a1 s =
      ((s.setCtx c (redrawTail s.draws (updateBody x (s.message a0 a1)))).noteReads a0 a1).tick := by
  rw [updateEffect, if_neg h0]
  exact State.onCtx_some _ h

theorem finalEffect_some {s : State} {c : CtxIdx} {x : Ctx} {a2 : Addr} (h : s.ctx? c = some x) :
    finalEffect c a2 s =
      ((s.setCtx c (Ctx.drawn s.draws .finalized)).writeOut a2 (finalDigest x)).tick :=
  State.onCtx_some _ h

theorem blockCtxEffect_some {s : State} {c : CtxIdx} {x : Ctx} {a0 a1 a2 : Addr}
    (h : s.ctx? c = some x) :
    blockCtxEffect c a0 a1 a2 s =
      (((s.setCtx c (Ctx.drawn s.draws .finalized)).noteReads a0 a1).writeOut a2
        (oneShotDigest s x a0 a1)).tick :=
  State.onCtx_some _ h

/-- No effect writes the fault registers, the parameters or the host's events. -/
theorem effectOf_control (i : Instr) (s : State) :
    (effectOf i s).code = s.code ∧ (effectOf i s).fcmd = s.fcmd ∧ (effectOf i s).farg = s.farg ∧
      (effectOf i s).cfg = s.cfg ∧ (effectOf i s).host = s.host ∧
      (effectOf i s).nctx = s.nctx := by
  cases i with
  | init c =>
    cases h : s.ctx? c with
    | none => simp [effectOf, initEffect, State.onCtx, h]
    | some x => simp [effectOf, initEffect_some h]
  | update c a0 a1 =>
    by_cases h0 : a1 = 0
    · subst h0
      simp only [effectOf, updateEffect_zero, and_self]
    · cases h : s.ctx? c with
      | none => simp only [effectOf, updateEffect, if_neg h0, State.onCtx, h, and_self]
      | some x => simp [effectOf, updateEffect_some h0 h]
  | final c a2 =>
    cases h : s.ctx? c with
    | none => simp [effectOf, finalEffect, State.onCtx, h]
    | some x => simp [effectOf, finalEffect_some h]
  | block a0 a1 a2 => simp [effectOf, blockEffect]
  | blockCtx c a0 a1 a2 =>
    cases h : s.ctx? c with
    | none => simp [effectOf, blockCtxEffect, State.onCtx, h]
    | some x => simp [effectOf, blockCtxEffect_some h]

/-! ## The step -/

theorem step_idle {s : State} (h : s.host = []) : step s = .next s := by
  simp [step, advance, h]

theorem step_event {s : State} {e : HostEvent} {rest : List HostEvent} (h : s.host = e :: rest) :
    step s = takeEvent e (s.setHost rest) := by
  simp [step, advance, h]

theorem issue_ok {r : Record} {s : State} {i : Instr} (hw : r.wellFormed s.cfg.aw = true)
    (hd : decode r = .ok i) : issue r s = exec i s := by
  simp [issue, hw, hd]

theorem issue_illegal {r : Record} {s : State} {e : DecodeError}
    (hw : r.wellFormed s.cfg.aw = true) (hd : decode r = .error e) :
    issue r s = .next (attempt r.cmd [some ⟨.illegalCommand, 0⟩] id s) := by
  simp [issue, hw, hd]

theorem issue_wide {r : Record} {s : State} (hw : r.wellFormed s.cfg.aw = false) :
    issue r s = .refused .operandTooWide := by
  simp [issue, hw]

end Sys2Proof.Machine
end

