-- ==== Sys2Proof/Laws/Compressor.lean ====
section
/-! SUPPORT. What the loops of the Block Compressor do, one turn at a time (spec/41_compressor.md R104,
R112, R113). -/

namespace Sys2Proof.Machine

/-- `ROTR` is Lean's rotation to the right for every amount the rule allows (R104). -/
theorem rotr_eq_rotateRight (x : Word) {n : Nat} (h : n ≤ 31) : rotr x n = x.rotateRight n := by
  rw [BitVec.rotateRight_def, Nat.mod_eq_of_lt (by omega)]
  rfl

@[simp] theorem blockWords_length (blk : Block) : (blockWords blk).length = 16 := by
  simp [blockWords]

@[simp] theorem scheduleNext_length (w : List Word) : (scheduleNext w).length = w.length + 1 := by
  simp [scheduleNext]

@[simp] theorem scheduleExtend_length (n : Nat) (w : List Word) :
    (scheduleExtend n w).length = w.length + n := by
  induction n generalizing w with
  | zero => rfl
  | succ n ih => rw [scheduleExtend, ih, scheduleNext_length]; omega

/-- Extending the schedule keeps the words it has. -/
theorem scheduleExtend_prefix (n : Nat) (w : List Word) {k : Nat} (hk : k < w.length) :
    (scheduleExtend n w).getD k 0 = w.getD k 0 := by
  induction n generalizing w with
  | zero => rfl
  | succ n ih =>
    rw [scheduleExtend, ih _ (by rw [scheduleNext_length]; omega), scheduleNext,
      List.getD_append _ _ _ _ hk]

/-- Round `t` is the `t`-th turn of the fold (R113). -/
theorem rounds_succ (k w : List Word) (v : Work) {t : Nat} (hk : t < k.length) (hw : t < w.length) :
    ((k.zip w).take (t + 1)).foldl roundStep v =
      roundStep (((k.zip w).take t).foldl roundStep v) (k.getD t 0, w.getD t 0) := by
  rw [List.take_add_one, List.foldl_append]
  simp [hk, hw, List.zip]

end Sys2Proof.Machine
end

