-- ==== Sys2Proof/Laws/Decode.lean ====
section
/-! SUPPORT. The fields of a command word and the assembled command word, as numbers (spec/30_encoding.md
R71, R80). -/

namespace Sys2Proof

theorem opField_toNat (w : Word) : (opField w).toNat = w.toNat % 16 := by
  simp [opField, BitVec.extractLsb'_toNat]

theorem rsv0Field_toNat (w : Word) : (rsv0Field w).toNat = w.toNat / 16 % 16 := by
  simp [rsv0Field, BitVec.extractLsb'_toNat, Nat.shiftRight_eq_div_pow]

theorem ctxField_toNat (w : Word) : (ctxField w).toNat = w.toNat / 256 % 256 := by
  simp [ctxField, BitVec.extractLsb'_toNat, Nat.shiftRight_eq_div_pow]

theorem rsv1Field_toNat (w : Word) : (rsv1Field w).toNat = w.toNat / 65536 := by
  have := w.isLt
  simp only [rsv1Field, BitVec.extractLsb'_toNat, Nat.shiftRight_eq_div_pow]
  omega

/-- `(c << 8) | OP` is `256 × c + OP` (R80). -/
theorem commandWord_toNat (op : BitVec 4) (c : CtxIdx) :
    (commandWord op c).toNat = 256 * c.toNat + op.toNat := by
  have hc := c.isLt
  have ho := op.isLt
  have h := Nat.two_pow_add_eq_or_of_lt (i := 8) (b := op.toNat) (by omega) c.toNat
  simp only [commandWord, BitVec.toNat_or, BitVec.toNat_shiftLeft, BitVec.toNat_setWidth]
  rw [Nat.mod_eq_of_lt (by omega : c.toNat < 2 ^ 32), Nat.mod_eq_of_lt (by omega : op.toNat < 2 ^ 32),
    Nat.shiftLeft_eq, Nat.mod_eq_of_lt (by omega), Nat.mul_comm, ← h]

/-- A field is nonzero exactly when its number is. -/
theorem ne_zero_iff_toNat {n : Nat} (v : BitVec n) : v ≠ 0 ↔ v.toNat ≠ 0 := by
  rw [ne_eq, ne_eq, BitVec.toNat_eq]; simp

end Sys2Proof
end

