-- ==== Sys2Proof/Laws/Driver.lean ====
section
/-! SUPPORT. What the bodies of INIT, UPDATE and FINAL do to one context, field by field, and the
lengths of what they write. -/

namespace Sys2Proof.Machine

@[simp] theorem initBody_h (w : Word) (x : Ctx) : (initBody w x).h = initialHash := rfl
@[simp] theorem initBody_buf (w : Word) (x : Ctx) : (initBody w x).buf = x.buf := rfl
@[simp] theorem initBody_bufcnt (w : Word) (x : Ctx) : (initBody w x).bufcnt = 0 := rfl
@[simp] theorem initBody_bitcnt (w : Word) (x : Ctx) : (initBody w x).bitcnt = 0 := rfl
@[simp] theorem initBody_tag (w : Word) (x : Ctx) : (initBody w x).tag = w := rfl
@[simp] theorem initBody_phase (w : Word) (x : Ctx) : (initBody w x).phase = .ready := rfl

@[simp] theorem redrawTail_h (n : Nat) (x : Ctx) : (redrawTail n x).h = x.h := by
  rw [redrawTail]

@[simp] theorem redrawTail_bufcnt (n : Nat) (x : Ctx) : (redrawTail n x).bufcnt = x.bufcnt := by
  rw [redrawTail]

@[simp] theorem redrawTail_bitcnt (n : Nat) (x : Ctx) : (redrawTail n x).bitcnt = x.bitcnt := by
  rw [redrawTail]

@[simp] theorem redrawTail_tag (n : Nat) (x : Ctx) : (redrawTail n x).tag = x.tag := by
  rw [redrawTail]

@[simp] theorem redrawTail_phase (n : Nat) (x : Ctx) : (redrawTail n x).phase = x.phase := by
  rw [redrawTail]


/-- The valid bytes of `BUF` are kept (R22). -/
theorem redrawTail_valid (n : Nat) (x : Ctx) (k : Nat) (hk : k < 64) (hv : k < x.bufcnt.toNat) :
    (redrawTail n x).buf[k] = x.buf[k] := by
  simp [redrawTail, hv]

@[simp] theorem Ctx.drawn_phase (n : Nat) (p : Phase) : (Ctx.drawn n p).phase = p := rfl

@[simp] theorem takeByte_bitcnt (x : Ctx) (b : Byte) : (takeByte x b).bitcnt = x.bitcnt := by
  simp only [takeByte]; split <;> rfl

@[simp] theorem takeByte_tag (x : Ctx) (b : Byte) : (takeByte x b).tag = x.tag := by
  simp only [takeByte]; split <;> rfl

@[simp] theorem takeByte_phase (x : Ctx) (b : Byte) : (takeByte x b).phase = x.phase := by
  simp only [takeByte]; split <;> rfl

/-- A byte that leaves the block incomplete (R140). -/
theorem takeByte_lt {x : Ctx} {b : Byte} (h : x.bufcnt.toNat < 63) :
    takeByte x b =
      { x with buf := x.buf.set x.bufcnt.toNat b (by omega), bufcnt := x.bufcnt + 1 } := by
  have hne : x.bufcnt + 1 ≠ 64 := by
    intro e
    have := congrArg BitVec.toNat e
    simp [BitVec.toNat_add] at this
    omega
  simp only [takeByte, if_neg hne]
  simp [Vector.setIfInBounds, Vector.set, Array.setIfInBounds, show x.bufcnt.toNat < 64 by omega]

/-- A byte that completes the block: it is compressed at once (R142). -/
theorem takeByte_full {x : Ctx} {b : Byte} (h : x.bufcnt.toNat = 63) :
    takeByte x b =
      { x with h := compress x.h (x.buf.set 63 b), buf := x.buf.set 63 b, bufcnt := 0 } := by
  have he : x.bufcnt = 63 := BitVec.eq_of_toNat_eq (by simpa using h)
  simp [takeByte, he, Vector.setIfInBounds, Vector.set, Array.setIfInBounds]

/-- `BUFCNT` after one byte (R23, R142). -/
theorem takeByte_bufcnt {x : Ctx} {b : Byte} (h : x.bufcnt.toNat ≤ 63) :
    (takeByte x b).bufcnt.toNat = (x.bufcnt.toNat + 1) % 64 := by
  rcases Nat.lt_or_eq_of_le h with h | h
  · rw [takeByte_lt h]
    simp [BitVec.toNat_add]
    omega
  · rw [takeByte_full h, h]
    rfl

/-- `BUFCNT` after a chunk (R144). -/
theorem foldl_takeByte_bufcnt (l : List Byte) {x : Ctx} (h : x.bufcnt.toNat ≤ 63) :
    (l.foldl takeByte x).bufcnt.toNat = (x.bufcnt.toNat + l.length) % 64 := by
  induction l generalizing x with
  | nil => simp; omega
  | cons b l ih =>
    have hb := takeByte_bufcnt (b := b) h
    rw [List.foldl_cons, ih (by omega), hb, List.length_cons]
    omega

theorem foldl_takeByte_fields (l : List Byte) (x : Ctx) :
    (l.foldl takeByte x).bitcnt = x.bitcnt ∧ (l.foldl takeByte x).tag = x.tag ∧
      (l.foldl takeByte x).phase = x.phase := by
  induction l generalizing x with
  | nil => simp
  | cons b l ih =>
    obtain ⟨h1, h2, h3⟩ := ih (takeByte x b)
    simp [h1, h2, h3]

@[simp] theorem updateBody_tag (x : Ctx) (l : List Byte) : (updateBody x l).tag = x.tag :=
  (foldl_takeByte_fields l _).2.1

@[simp] theorem updateBody_phase (x : Ctx) (l : List Byte) : (updateBody x l).phase = x.phase :=
  (foldl_takeByte_fields l _).2.2

/-- `BITCNT` after UPDATE (R143). -/
theorem updateBody_bitcnt (x : Ctx) (l : List Byte) :
    (updateBody x l).bitcnt = x.bitcnt + BitVec.ofNat 64 (8 * l.length) :=
  (foldl_takeByte_fields l _).1

theorem updateBody_bufcnt {x : Ctx} (l : List Byte) (h : x.bufcnt.toNat ≤ 63) :
    (updateBody x l).bufcnt.toNat = (x.bufcnt.toNat + l.length) % 64 :=
  foldl_takeByte_bufcnt l (x := { x with bitcnt := _ }) h

@[simp] theorem be32Bytes_length (w : Word) : (be32Bytes w).length = 4 := rfl

@[simp] theorem be64Bytes_length (v : BitVec 64) : (be64Bytes v).length = 8 := rfl

/-- The eight parts of a digest. -/
theorem digestBytes_eq (h : HashWords) :
    digestBytes h = be32Bytes h[0] ++ be32Bytes h[1] ++ be32Bytes h[2] ++ be32Bytes h[3] ++
      be32Bytes h[4] ++ be32Bytes h[5] ++ be32Bytes h[6] ++ be32Bytes h[7] := by
  have : h.toList = [h[0], h[1], h[2], h[3], h[4], h[5], h[6], h[7]] := by
    apply List.ext_getElem
    · simp
    · intro n hn _
      have : n < 8 := by simpa using hn
      interval_cases n <;> simp
  simp [digestBytes, this]

theorem digestBytes_length (h : HashWords) : (digestBytes h).length = 32 := by
  simp [digestBytes_eq]

@[simp] theorem finalDigest_length (x : Ctx) : (finalDigest x).length = 32 :=
  digestBytes_length _

@[simp] theorem oneShotDigest_length (s : State) (x : Ctx) (a0 a1 : Addr) :
    (oneShotDigest s x a0 a1).length = 32 := finalDigest_length _

/-- The padding marker is one byte of the block (R151). -/
theorem putMarker_getElem (x : Ctx) (k : Nat) (hk : k < 64) :
    (putMarker x)[k] = if k = x.bufcnt.toNat then 0x80 else x.buf[k] := by
  unfold putMarker
  rw [Vector.getElem_setIfInBounds]
  simp [eq_comm]

/-- A byte appended to the valid bytes of `BUF` (R22, R140). -/
theorem take_set (buf : Block) (n : Nat) (b : Byte) (h : n < 64) :
    (buf.set n b h).toList.take (n + 1) = buf.toList.take n ++ [b] := by
  apply List.ext_getElem
  · simp; omega
  · intro i h1 h2
    simp only [List.length_take, Vector.length_toList] at h1
    simp [List.getElem_append, Vector.getElem_set]
    by_cases hi : i = n
    · subst hi; simp
    · simp [show i < n by omega, show i < 64 by omega, Ne.symm hi]

/-- The valid bytes of `BUF` after the redraw of the others (R22). -/
theorem redrawTail_take (n : Nat) (x : Ctx) :
    (redrawTail n x).buf.toList.take x.bufcnt.toNat = x.buf.toList.take x.bufcnt.toNat := by
  apply List.ext_getElem
  · simp
  · intro i h1 h2
    simp only [List.length_take, Vector.length_toList] at h1
    simp [redrawTail]
    intro h
    omega

end Sys2Proof.Machine
end

