-- ==== Sys2Proof/Laws/PerInstr.lean ====
section
/-! SUPPORT. Statements for every command, one lemma per constructor: the fields of the command word it
assembles to (spec/30_encoding.md R71, R72, R73, R75). -/

namespace Sys2Proof.Laws.CommandWord

/-- The value of `OP` of a command (R73). -/
def op : Instr → Nat
  | .init _ => 1
  | .update _ _ _ => 2
  | .final _ _ => 3
  | .block _ _ _ => 4
  | .blockCtx _ _ _ _ => 5

/-- The value of the `CTX` field: the context named, and 0 for BLOCK (R72). -/
def ctx : Instr → Nat
  | .init c | .update c _ _ | .final c _ | .blockCtx c _ _ _ => c.toNat
  | .block _ _ _ => 0

/-- The command word has the OP and the CTX of the command, and both reserved fields are 0. -/
def Statement (i : Instr) : Prop :=
  (opField (encode i).cmd).toNat = op i ∧ (ctxField (encode i).cmd).toNat = ctx i ∧
    (rsv0Field (encode i).cmd).toNat = 0 ∧ (rsv1Field (encode i).cmd).toNat = 0

/-- The four fields of an assembled command word. -/
theorem fields (o : BitVec 4) (c : CtxIdx) :
    (opField (commandWord o c)).toNat = o.toNat ∧ (ctxField (commandWord o c)).toNat = c.toNat ∧
      (rsv0Field (commandWord o c)).toNat = 0 ∧ (rsv1Field (commandWord o c)).toNat = 0 := by
  have hc := c.isLt
  have ho := o.isLt
  rw [opField_toNat, ctxField_toNat, rsv0Field_toNat, rsv1Field_toNat, commandWord_toNat]
  omega

theorem init (c : CtxIdx) : Statement (.init c) := fields 1 c

theorem update (c : CtxIdx) (a0 a1 : Addr) : Statement (.update c a0 a1) := fields 2 c

theorem final (c : CtxIdx) (a2 : Addr) : Statement (.final c a2) := fields 3 c

theorem block (a0 a1 a2 : Addr) : Statement (.block a0 a1 a2) := fields 4 0

theorem blockCtx (c : CtxIdx) (a0 a1 a2 : Addr) : Statement (.blockCtx c a0 a1 a2) := fields 5 c

end Sys2Proof.Laws.CommandWord
end

