-- ==== Sys2Proof/Tests/Slice0.lean ====
section
/-! SUPPORT. Tests of single steps, expected results from spec/95_test_vectors.md and the examples of
the rules; and for every obligation with hypotheses a witness that meets them, clause by clause. -/

namespace Sys2Proof.Tests

open Sys2Proof.Machine Sys2Proof.Claim

/-! ## The helper machine -/

/-- `MV_B` of spec/95_test_vectors.md: everything inside `[0x1000, 0x10000)`. -/
def mvB : Admission := .windows [⟨0x1000, 0xf000, true, true⟩]

/-- A context of plain values in this phase, with `n` bytes `0x61` and this bit count. -/
def context (p : Phase) (n : BitVec 7) (bits : BitVec 64) : Ctx :=
  { h := initialHash, buf := Vector.replicate 64 0x61, bufcnt := n, bitcnt := bits, tag := 0,
    phase := p }

/-- Four contexts: number 0 is `x`, 1 is Ready and empty, 2 is Finalized, 3 is Uninitialized; the
bytes `61 62 63` at 0x1000. -/
def machine (aw : Nat) (mv : Admission) (x : Ctx) : State :=
  { cfg := ⟨aw, 0x5a5a5a5a, .compact, 0, mv⟩
    ctxs := [x, context .ready 0 0, context .finalized 9 9, context .uninitialized 9 9]
    scr := context .uninitialized 9 9
    code := 0, fcmd := 0, farg := 0
    mem := [(0x1000, 0x61), (0x1001, 0x62), (0x1002, 0x63)]
    host := [], bus := [], draws := 0 }

/-- Context 0 holds three bytes `0x61`. -/
def three : State := machine 32 .everywhere (context .ready 3 24)

/-- The same, with a halted core. -/
def halted : State := { three with code := 3, fcmd := 0x102, farg := 1 }

/-- The same, with these events to come. -/
def withEvents (s : State) (es : List HostEvent) : State := { s with host := es }

/-- A value of the next state, where there is one. -/
def look {α : Type} (o : Host.Outcome State Fault Refusal) (f : State → α) : Option α :=
  match o with
  | .next t => some (f t)
  | .fault _ => none
  | .refused _ => none

/-- The 32 bytes of memory from `a` on, as one number, the first byte most significant. -/
def digestAt (a : Nat) (t : State) : Nat :=
  (List.range 32).foldl (fun n i => 256 * n + (t.mem.read (a + i)).toNat) 0

/-- The three fault registers. -/
def faultRegs (t : State) : BitVec 4 × Word × Addr := (t.code, t.fcmd, t.farg)

/-! ## Well-formedness refuses -/

/-- R70: an operand field of 2^32 is no 32-bit value; the ill-formed term of each check. -/
theorem test_wellFormed_refuses :
    Record.wellFormed 32 ⟨1, 0x100000000, 0, 0⟩ = false ∧
    Record.wellFormed 32 ⟨1, 0, 0x100000000, 0⟩ = false ∧
    Record.wellFormed 32 ⟨1, 0, 0, 0x100000000⟩ = false ∧
    Record.wellFormed 32 ⟨1, 0xffffffff, 0xffffffff, 0xffffffff⟩ = true ∧
    Instr.wellFormed 32 (.update 0 0x100000000 0) = false ∧
    Instr.wellFormed 32 (.update 0 0 0x100000000) = false ∧
    Instr.wellFormed 32 (.final 0 0x100000000) = false ∧
    Instr.wellFormed 32 (.block 0x100000000 0 0) = false ∧
    Instr.wellFormed 32 (.block 0 0x100000000 0) = false ∧
    Instr.wellFormed 32 (.block 0 0 0x100000000) = false ∧
    Instr.wellFormed 32 (.blockCtx 0 0x100000000 0 0) = false ∧
    Instr.wellFormed 32 (.blockCtx 0 0 0x100000000 0) = false ∧
    Instr.wellFormed 32 (.blockCtx 0 0 0 0x100000000) = false ∧
    Instr.wellFormed 64 (.blockCtx 255 0x100000000 0 0) = true := by decide

/-! ## Decoding -/

/-- R71: the pattern `RSV1 CTX RSV0 OP`, written out bit by bit for each command of R73. -/
theorem test_decode_words :
    decode ⟨0b0000000000000000_00000011_0000_0001, 7, 8, 9⟩ = .ok (.init 3) ∧
    decode ⟨0b0000000000000000_10000001_0000_0010, 7, 8, 9⟩ = .ok (.update 0x81 7 8) ∧
    decode ⟨0b0000000000000000_11111111_0000_0011, 7, 8, 9⟩ = .ok (.final 255 9) ∧
    decode ⟨0b0000000000000000_00000000_0000_0100, 7, 8, 9⟩ = .ok (.block 7 8 9) ∧
    decode ⟨0b0000000000000000_01000000_0000_0101, 7, 8, 9⟩ = .ok (.blockCtx 64 7 8 9) := by decide

/-- V10 rows 1 to 6: the illegal words; and a word with more than one thing wrong. -/
theorem test_decode_illegal :
    decode ⟨0x00000000, 0, 0, 0⟩ = .error .reservedOpcode ∧
    decode ⟨0x00000006, 0, 0, 0⟩ = .error .reservedOpcode ∧
    decode ⟨0x0000000f, 0, 0, 0⟩ = .error .reservedOpcode ∧
    decode ⟨0x00000011, 0, 0, 0⟩ = .error .reservedLowBits ∧
    decode ⟨0x00010001, 0, 0, 0⟩ = .error .reservedHighBits ∧
    decode ⟨0x00000104, 0x1000, 3, 0x2000⟩ = .error .blockNamesContext ∧
    decode ⟨0x80000010, 0, 0, 0⟩ = .error .reservedHighBits := by decide

/-- The five rows of spec/opcode_table.json. -/
theorem test_table_rows_decode :
    decodeTableWord 32 1 = some (.init 0) ∧ decodeTableWord 32 2 = some (.update 0 0 0) ∧
    decodeTableWord 32 3 = some (.final 0 0) ∧ decodeTableWord 32 4 = some (.block 0 0 0) ∧
    decodeTableWord 32 5 = some (.blockCtx 0 0 0 0) ∧ decodeTableWord 32 0x304 = none := by decide

/-- A placed row is what the next step runs. -/
theorem test_reset_runs_table_rows :
    step (State.reset.withFetchWord 32 1) = exec (.init 0) State.reset ∧
    step (State.reset.withFetchWord 32 2) = exec (.update 0 0 0) State.reset ∧
    step (State.reset.withFetchWord 32 3) = exec (.final 0 0) State.reset ∧
    step (State.reset.withFetchWord 32 4) = exec (.block 0 0 0) State.reset ∧
    step (State.reset.withFetchWord 32 5) = exec (.blockCtx 0 0 0 0) State.reset :=
  ⟨rfl, rfl, rfl, rfl, rfl⟩

/-! ## INIT -/

/-- V8, the Ready row: `H = IV`, the counts 0, the tag, Ready; `BUF` keeps its bytes. -/
theorem test_init_ready_context :
    look (exec (.init 0) three) (fun t => t.ctx? 0) =
      some (some { h := initialHash, buf := Vector.replicate 64 0x61, bufcnt := 0, bitcnt := 0,
                   tag := 0x5a5a5a5a, phase := .ready }) := by decide +kernel

/-- V8, the last row: `c = 4` with `NCTX = 4`. -/
theorem test_init_badContext : look (exec (.init 4) three) faultRegs = some (2, 0x401, 4) := by
  decide

/-! ## UPDATE -/

/-- R140's example: the three bytes at 0x1000 into an empty context. -/
theorem test_update_three_bytes :
    look (exec (.update 1 0x1000 3) three)
      (fun t => (t.ctx? 1).map fun x => (x.buf.toList.take 3, x.bufcnt, x.bitcnt, x.h)) =
      some (some ([0x61, 0x62, 0x63], 3, 24, initialHash)) := by decide +kernel

/-- V7, the row b = 63, a1 = 1, with V3's block `a*64`: one byte completes the block, which is
compressed at once. -/
theorem test_update_completes_block :
    look (exec (.update 0 0x1000 1) (machine 32 .everywhere (context .ready 63 504)))
      (fun t => (t.ctx? 0).map fun x => (x.h, x.bufcnt, x.bitcnt)) =
      some (some (#v[0xdf5bb81c, 0xe81e0626, 0xfb45a894, 0x4fd40f31,
                     0xb25e6816, 0xd6d499c1, 0xab904929, 0x00635e66], 0, 512)) := by
  decide +kernel

/-! ## FINAL -/

/-- V1: the digest of `61 62 63`, from a context that holds the three bytes. -/
theorem test_final_abc :
    look (exec (.final 0 0x2000) (machine 32 .everywhere
      { context .ready 3 24 with buf := (Vector.replicate 64 0xee).set 0 0x61 |>.set 1 0x62 |>.set 2 0x63 }))
      (digestAt 0x2000) =
      some 0xba7816bf8f01cfea414140de5dae2223b00361a396177a9cb410ff61f20015ad := by decide +kernel

/-- V5, `BUFCNT = 56`: two blocks. -/
theorem test_final_two_blocks :
    look (exec (.final 0 0x2000) (machine 32 .everywhere (context .ready 56 0x1c0)))
      (digestAt 0x2000) =
      some 0xb35439a4ac6f0948b6d6f9e3c6af0f5f590ce20f1bde7090ef7970686ec6738a := by decide +kernel

/-! ## BLOCK -/

/-- PR6, step 1: the digest over the message it is the digest of. -/
theorem test_block_overlap :
    look (exec (.block 0x1000 3 0x1000) three) (digestAt 0x1000) =
      some 0xba7816bf8f01cfea414140de5dae2223b00361a396177a9cb410ff61f20015ad := by decide +kernel

/-- V9, the second row: the empty message, the data address ignored. -/
theorem test_block_empty :
    look (exec (.block 0 0 0x2000) three) (digestAt 0x2000) =
      some 0xe3b0c44298fc1c149afbf4c8996fb92427ae41e4649b934ca495991b7852b855 := by decide +kernel

/-! ## BLOCK_CTX -/

/-- R175's example: the digest, and the context Finalized, here from Uninitialized. -/
theorem test_blockCtx_abc :
    look (exec (.blockCtx 3 0x1000 3 0x2000) three)
      (fun t => (digestAt 0x2000 t, (t.ctx? 3).map (·.phase))) =
      some (0xba7816bf8f01cfea414140de5dae2223b00361a396177a9cb410ff61f20015ad,
        some .finalized) := by decide +kernel

/-- V10 row 19: the context check comes before the checks of the null addresses. -/
theorem test_blockCtx_badContext :
    look (exec (.blockCtx 7 0 5 0) three) faultRegs = some (2, 0x705, 7) := by decide

/-! ## The checks, V10 -/

/-- V10 rows 8 to 14: UPDATE (row 8 on context 3, which is the Uninitialized one here). -/
theorem test_update_checks :
    look (exec (.update 3 0 5) three) faultRegs = some (3, 0x302, 3) ∧
    look (exec (.update 0 0 5) three) faultRegs = some (4, 2, 0) ∧
    look (exec (.update 0 0x1000 1) (machine 32 .everywhere (context .ready 63 (0 - 8)))) faultRegs =
      some (7, 2, 1) ∧
    look (exec (.update 0 0 0) three) faultRegs = some (0, 0, 0) ∧
    look (exec (.update 0 0xfffffffe 3) three) faultRegs = some (5, 2, 0xfffffffe) ∧
    look (exec (.update 0 0xfffffffd 3) three) faultRegs = some (0, 0, 0) ∧
    look (exec (.update 0 0x0ff0 0x20) (machine 32 mvB (context .ready 3 24))) faultRegs =
      some (5, 2, 0xff0) := by decide +kernel

/-- V10 rows 15 to 18 and 20 to 23: FINAL, BLOCK, and a halted core. -/
theorem test_digest_checks :
    look (exec (.final 0 0) three) faultRegs = some (6, 3, 0) ∧
    look (exec (.final 0 0xffffffe0) three) faultRegs = some (0, 0, 0) ∧
    look (exec (.final 0 0xffffffe1) three) faultRegs = some (6, 3, 0xffffffe1) ∧
    look (exec (.final 2 0) three) faultRegs = some (3, 0x203, 2) ∧
    look (exec (.block 0 3 0) three) faultRegs = some (4, 4, 0) ∧
    look (exec (.block 0x1000 3 0) three) faultRegs = some (6, 4, 0) ∧
    look (exec (.block 0x1000 0x2000000000000000 0x2000)
      (machine 64 .everywhere (context .ready 3 24))) faultRegs = some (7, 4, 0x2000000000000000) ∧
    look (exec (.init 0) halted) id = some halted := by decide +kernel

/-! ## The compressor -/

/-- V4: the primitive functions. -/
theorem test_primitives :
    rotr 0x6a09e667 2 = 0xda827999 ∧ shr 0x6a09e667 3 = 0x0d413ccc ∧ rotr 1 1 = 0x80000000 ∧
    rotr 0x80000000 31 = 1 ∧ ch 0x510e527f 0x9b05688c 0x1f83d9ab = 0x1f85c98c ∧
    ch 0xffffffff 0x12345678 0x9abcdef0 = 0x12345678 ∧ ch 0 0x12345678 0x9abcdef0 = 0x9abcdef0 ∧
    maj 0x6a09e667 0xbb67ae85 0x3c6ef372 = 0x3a6fe667 ∧ maj 0xffffffff 0xffffffff 0 = 0xffffffff ∧
    maj 0xffffffff 0 0 = 0 ∧ bigSigma0 0x6a09e667 = 0xce20b47e ∧
    bigSigma1 0x510e527f = 0x3587272b ∧ smallSigma0 1 = 0x02004000 ∧
    smallSigma0 0x80000000 = 0x11002000 ∧ smallSigma0 0xffffffff = 0x1fffffff ∧
    smallSigma1 1 = 0x0000a000 ∧ smallSigma1 0x80000000 = 0x00205000 ∧
    smallSigma1 0xffffffff = 0x003fffff := by decide

/-- V3, rows 1 and 4. -/
theorem test_compress_extreme_blocks :
    compress initialHash (Vector.replicate 64 0) =
      #v[0xda5698be, 0x17b9b469, 0x62335799, 0x779fbeca,
         0x8ce5d491, 0xc0d26243, 0xbafef9ea, 0x1837a9d8] ∧
    compress (Vector.replicate 8 0) (Vector.replicate 64 0xff) =
      #v[0x5081b30e, 0xfa9924a2, 0x8412d8aa, 0x28bb0c93,
         0xda147a5a, 0xd8e1f92b, 0x5af1210d, 0x57081603] := by decide +kernel

/-! ## Witnesses: for every obligation with hypotheses, values that meet them -/

/-- The command `UPDATE 1, 0x1000, 3` of R80. -/
def updateRecord : Record := ⟨0x102, 0x1000, 3, 0⟩

theorem witness_DecodeAndEncodeAgree :
    decode updateRecord = .ok (.update 1 0x1000 3) := by decide

theorem witness_IllegalWordsAreExactlyTheReservedOnes :
    ((0x00010001 : Word).toNat / 65536 ≠ 0) ∧ ((0x00000011 : Word).toNat / 16 % 16 ≠ 0) ∧
    ((0x00000300 : Word).toNat % 16 = 0) ∧ (6 ≤ (0x00000006 : Word).toNat % 16) ∧
    ((0x00000104 : Word).toNat % 16 = 4 ∧ (0x00000104 : Word).toNat / 256 % 256 ≠ 0) := by decide

/-- One pair of records for each clause: INIT, UPDATE, FINAL. -/
theorem witness_UnusedOperandsChangeNothing :
    (Record.wellFormed three.cfg.aw ⟨0x301, 0, 0, 0⟩ = true ∧
      Record.wellFormed three.cfg.aw ⟨0x301, 1, 2, 0xffffffff⟩ = true ∧
      (0x301 : Word).toNat % 16 = 1) ∧
    (Record.wellFormed three.cfg.aw ⟨0x002, 0x1000, 3, 0⟩ = true ∧
      Record.wellFormed three.cfg.aw ⟨0x002, 0x1000, 3, 0xffffffff⟩ = true ∧
      (0x002 : Word).toNat % 16 = 2) ∧
    (Record.wellFormed three.cfg.aw ⟨0x003, 0, 0, 0x2000⟩ = true ∧
      Record.wellFormed three.cfg.aw ⟨0x003, 0xffffffff, 1, 0x2000⟩ = true ∧
      (0x003 : Word).toNat % 16 = 3) := by decide

theorem witness_StepRunsTheDecodedCommand :
    (withEvents three [.command updateRecord, .reset]).host = .command updateRecord :: [.reset] ∧
    updateRecord.wellFormed (withEvents three [.command updateRecord, .reset]).cfg.aw = true ∧
    decode updateRecord = .ok (.update 1 0x1000 3) := ⟨rfl, by decide, by decide⟩

/-- The word 0x10001, V10 row 5. -/
theorem witness_IllegalWordFaults :
    (withEvents three [.command ⟨0x10001, 0, 0, 0⟩]).host = .command ⟨0x10001, 0, 0, 0⟩ :: [] ∧
    Record.wellFormed (withEvents three [.command ⟨0x10001, 0, 0, 0⟩]).cfg.aw ⟨0x10001, 0, 0, 0⟩ =
      true ∧
    decode ⟨0x10001, 0, 0, 0⟩ = .error .reservedHighBits ∧
    (withEvents three [.command ⟨0x10001, 0, 0, 0⟩]).code = 0 :=
  ⟨rfl, by decide, by decide, by decide⟩

theorem witness_HaltedCoreExecutesNothing :
    (withEvents halted [.command updateRecord]).code ≠ 0 ∧
    (withEvents halted [.command updateRecord]).host = .command updateRecord :: [] ∧
    updateRecord.wellFormed (withEvents halted [.command updateRecord]).cfg.aw = true :=
  ⟨by decide, rfl, by decide⟩

/-- Once for a command, once for a store of the host, once for no event. -/
theorem witness_OnlyResetLeavesTheHalt :
    ((withEvents halted [.command updateRecord]).code ≠ 0 ∧
      (∃ t, step (withEvents halted [.command updateRecord]) = .next t) ∧
      (withEvents halted [.command updateRecord]).host.head? ≠ some .reset) ∧
    ((withEvents halted [.store 0 1]).code ≠ 0 ∧
      (∃ t, step (withEvents halted [.store 0 1]) = .next t) ∧
      (withEvents halted [.store 0 1]).host.head? ≠ some .reset) ∧
    (halted.code ≠ 0 ∧ (∃ t, step halted = .next t) ∧ halted.host.head? ≠ some .reset) :=
  ⟨⟨by decide, ⟨_, rfl⟩, by decide⟩, ⟨by decide, ⟨_, rfl⟩, by decide⟩,
    ⟨by decide, ⟨_, rfl⟩, by decide⟩⟩

theorem witness_ResetEventResetsTheCore :
    (withEvents halted [.reset, .store 0 1]).host = .reset :: [.store 0 1] := rfl

theorem witness_IdleCoreKeepsAllState : three.host = [] := rfl

theorem witness_ConcurrentIssueIsRefused :
    (withEvents three [.concurrent updateRecord updateRecord]).host =
      .concurrent updateRecord updateRecord :: [] := rfl

/-- The last address that exists, and the first that does not. -/
theorem witness_HostStoreChangesOneByte :
    (withEvents three [.store 0xffffffff 7]).host = .store 0xffffffff 7 :: [] ∧
    (withEvents three [.store 0xffffffff 7]).mem.wf ∧ 0xffffffff < 2 ^ three.cfg.aw ∧
    (withEvents three [.store 0x100000000 7]).host = .store 0x100000000 7 :: [] ∧
    (withEvents three [.store 0x100000000 7]).mem.wf ∧ ¬ 0x100000000 < 2 ^ three.cfg.aw :=
  ⟨rfl, by decide, by decide, rfl, by decide, by decide⟩

/-- Each operand in turn at the first value that is too wide. -/
theorem witness_OverwideRecordIsRefused :
    (withEvents three [.command ⟨1, 0x100000000, 0, 0⟩]).host =
      .command ⟨1, 0x100000000, 0, 0⟩ :: [] ∧
    2 ^ three.cfg.aw ≤ (0x100000000 : Addr).toNat ∧
    (withEvents three [.command ⟨1, 0, 0x100000000, 0⟩]).host =
      .command ⟨1, 0, 0x100000000, 0⟩ :: [] ∧
    (withEvents three [.command ⟨1, 0, 0, 0x100000000⟩]).host =
      .command ⟨1, 0, 0, 0x100000000⟩ :: [] := ⟨rfl, by decide, rfl, rfl⟩

/-- Register 3 is the first that is not exposed. -/
theorem witness_ReadPortShowsTheFaultRegisters : (3 : Nat) ≤ 3 := by decide

/-- The first context that does not exist, and the last that does. -/
theorem witness_InitChecksInOrder :
    three.code = 0 ∧ three.nctx ≤ (4 : CtxIdx).toNat ∧ ¬ three.nctx ≤ (3 : CtxIdx).toNat := by decide

/-- Context 0 of `three`. -/
theorem ctx_three : three.ctx? 0 = some (context .ready 3 24) := rfl

/-- One line for each clause, in their order; the last range ends exactly at 2^32 (V10 row 13). -/
theorem witness_UpdateChecksInOrder :
    three.code = 0 ∧ three.nctx ≤ (4 : CtxIdx).toNat ∧
    (¬ three.nctx ≤ (3 : CtxIdx).toNat ∧ (three.ctx? 3).map (·.phase) ≠ some .ready) ∧
    (¬ three.nctx ≤ (0 : CtxIdx).toNat ∧ (three.ctx? 0).map (·.phase) = some .ready ∧
      (5 : Addr) ≠ 0 ∧ (0 : Addr) = 0) ∧
    ((3 : Addr) ≠ 0 ∧ (0xfffffffe : Addr) ≠ 0 ∧
      ¬ ((0xfffffffe : Addr).toNat + (3 : Addr).toNat ≤ 2 ^ three.cfg.aw ∧
        memValid three.cfg.memValid (0xfffffffe : Addr).toNat (3 : Addr).toNat .read = true)) ∧
    (2 ^ 64 ≤ (((machine 32 .everywhere (context .ready 63 (0 - 8))).ctx? 0).map
        (·.bitcnt.toNat)).getD 0 + 8 * (1 : Addr).toNat) ∧
    ((0xfffffffd : Addr).toNat + (3 : Addr).toNat ≤ 2 ^ three.cfg.aw ∧
      memValid three.cfg.memValid (0xfffffffd : Addr).toNat (3 : Addr).toNat .read = true ∧
      ¬ 2 ^ 64 ≤ ((three.ctx? 0).map (·.bitcnt.toNat)).getD 0 + 8 * (3 : Addr).toNat) := by
  decide +kernel

/-- One line for each clause; the digest ranges of V10 rows 15 to 17. -/
theorem witness_FinalChecksInOrder :
    three.code = 0 ∧ three.nctx ≤ (4 : CtxIdx).toNat ∧
    (¬ three.nctx ≤ (2 : CtxIdx).toNat ∧ (three.ctx? 2).map (·.phase) ≠ some .ready) ∧
    (¬ three.nctx ≤ (0 : CtxIdx).toNat ∧ (three.ctx? 0).map (·.phase) = some .ready) ∧
    2 ^ three.cfg.aw < (0xffffffe1 : Addr).toNat + 32 ∧
    memValid (machine 32 mvB (context .ready 3 24)).cfg.memValid (0xfff : Addr).toNat 32 .write =
      false ∧
    ¬ ((0xffffffe0 : Addr) = 0 ∨ 2 ^ three.cfg.aw < (0xffffffe0 : Addr).toNat + 32 ∨
      memValid three.cfg.memValid (0xffffffe0 : Addr).toNat 32 .write = false) := by decide +kernel

/-- One line for each clause; for the length, the 64-bit machine of V10 row 22, and one byte less. -/
theorem witness_BlockChecksInOrder :
    (machine 64 .everywhere (context .ready 3 24)).code = 0 ∧
    ((3 : Addr) ≠ 0 ∧ (0 : Addr) = 0) ∧
    ((3 : Addr) ≠ 0 ∧ (0xfffffffe : Addr) ≠ 0 ∧
      ¬ ((0xfffffffe : Addr).toNat + (3 : Addr).toNat ≤ 2 ^ three.cfg.aw)) ∧
    ((0x1000 : Addr).toNat + (0x2000000000000000 : Addr).toNat ≤ 2 ^ 64 ∧
      2 ^ 64 ≤ 8 * (0x2000000000000000 : Addr).toNat ∧
      ¬ 2 ^ 64 ≤ 8 * (0x1fffffffffffffff : Addr).toNat) ∧
    ((0 : Addr) = 0 ∧ 2 ^ three.cfg.aw < (0xffffffe1 : Addr).toNat + 32) ∧
    ¬ ((0xffffffe0 : Addr) = 0 ∨ 2 ^ three.cfg.aw < (0xffffffe0 : Addr).toNat + 32 ∨
      memValid three.cfg.memValid (0xffffffe0 : Addr).toNat 32 .write = false) := by decide +kernel

/-- The context clause; the others are those of BLOCK. -/
theorem witness_BlockCtxChecksInOrder :
    three.code = 0 ∧ three.nctx ≤ (4 : CtxIdx).toNat ∧ ¬ three.nctx ≤ (3 : CtxIdx).toNat ∧
    ((3 : Addr) ≠ 0 ∧ (0 : Addr) = 0) ∧
    ¬ ((0xfffffffe : Addr).toNat + (3 : Addr).toNat ≤ 2 ^ three.cfg.aw) ∧
    2 ^ 64 ≤ 8 * (0x2000000000000000 : Addr).toNat ∧
    2 ^ three.cfg.aw < (0xffffffe1 : Addr).toNat + 32 := by decide +kernel

/-- A command that faults, and one that does not. -/
theorem witness_FaultsArePrecise :
    (∃ t, exec (.init 4) three = .next t ∧ t.code ≠ three.code) ∧
    (∃ t, exec (.init 3) three = .next t ∧ t.code = three.code) :=
  ⟨⟨_, rfl, by decide⟩, ⟨_, rfl, by decide⟩⟩

theorem witness_InitCompletes : three.code = 0 ∧ three.ctx? 0 = some (context .ready 3 24) :=
  ⟨rfl, rfl⟩

/-- A chunk that completes a block, from `BUFCNT = 63`; an empty chunk at address 0. -/
theorem witness_UpdateCompressesTheStream :
    (machine 32 .everywhere (context .ready 63 504)).code = 0 ∧
    (machine 32 .everywhere (context .ready 63 504)).ctx? 0 = some (context .ready 63 504) ∧
    (context .ready 63 504).phase = .ready ∧ (context .ready 63 504).bufcnt.toNat ≤ 63 ∧
    dataOk (machine 32 .everywhere (context .ready 63 504)).cfg 0x1000 3 ∧
    dataOk (machine 32 .everywhere (context .ready 63 504)).cfg 0 0 ∧
    (context .ready 63 504).bitcnt.toNat + 8 * (3 : Addr).toNat < 2 ^ 64 :=
  ⟨rfl, rfl, rfl, by decide, .inr (by decide), .inl rfl, by decide⟩

theorem witness_UpdateOfNothingIsANoOp :
    three.code = 0 ∧ three.nctx ≤ (4 : CtxIdx).toNat ∧
    (¬ three.nctx ≤ (0 : CtxIdx).toNat ∧ (three.ctx? 0).map (·.phase) = some .ready) ∧
    (¬ three.nctx ≤ (3 : CtxIdx).toNat ∧ (three.ctx? 3).map (·.phase) ≠ some .ready) := by decide

/-- Three bytes as one and two. -/
theorem witness_SplittingAChunkChangesNothing :
    ∃ t₁ t₂ t y z, three.code = 0 ∧ three.ctx? 0 = some (context .ready 3 24) ∧
      (context .ready 3 24).phase = .ready ∧ (context .ready 3 24).bufcnt.toNat ≤ 63 ∧
      (0x1000 : Addr).toNat + (1 : Addr).toNat + (2 : Addr).toNat ≤ 2 ^ three.cfg.aw ∧
      three.cfg.aw ≤ 64 ∧ (1 : Addr).toNat + (2 : Addr).toNat < 2 ^ 64 ∧
      exec (.update 0 0x1000 1) three = .next t₁ ∧
      exec (.update 0 (0x1000 + 1) 2) t₁ = .next t₂ ∧
      exec (.update 0 0x1000 (1 + 2)) three = .next t ∧ t₂.code = 0 ∧ t.code = 0 ∧
      t₂.ctx? 0 = some y ∧ t.ctx? 0 = some z :=
  ⟨_, _, _, _, _, rfl, rfl, rfl, by decide, by decide, by decide, by decide, rfl, rfl, rfl,
    by decide +kernel, by decide +kernel, rfl, rfl⟩

/-- Counts 3 and 63. -/
theorem witness_DirectBlockPathAgrees :
    (context .ready 3 24).bufcnt.toNat ≤ 63 ∧ (context .ready 63 504).bufcnt.toNat ≤ 63 := by decide

/-- The largest count that needs one block, and the smallest that needs two. -/
theorem witness_FinalWritesThePaddedDigest :
    three.code = 0 ∧ three.ctx? 0 = some (context .ready 3 24) ∧
    (context .ready 3 24).phase = .ready ∧ (context .ready 55 440).bufcnt.toNat ≤ 63 ∧
    (context .ready 56 448).bufcnt.toNat ≤ 63 ∧ digestOk three.cfg 0xffffffe0 ∧ three.mem.wf :=
  ⟨rfl, rfl, rfl, by decide, by decide, ⟨by decide, by decide, by decide⟩, by decide⟩

/-- Messages of 55 and of 120 bytes (R156's examples). -/
theorem witness_FinalCompressesOneOrTwoBlocks :
    (context .ready 55 440).bufcnt.toNat = 55 % 64 ∧
    (context .ready 56 960).bufcnt.toNat = 120 % 64 := by decide

/-- The last byte of the last word. -/
theorem witness_DigestIsBigEndian : (3 : Nat) < 4 := by decide

/-- FINAL from the machine's memory and from an empty one. -/
theorem witness_FinalReadsNoMemory :
    ∃ t t', three.mem.wf ∧ Memory.wf [] ∧ three.code = 0 ∧
      exec (.final 0 0x2000) three = .next t ∧
      exec (.final 0 0x2000) { three with mem := [] } = .next t' ∧ t.code = 0 ∧ (31 : Nat) < 32 :=
  ⟨_, _, by decide, by decide, rfl, rfl, rfl, by decide, by decide⟩

/-- Both clauses: a completed FINAL and then an UPDATE of another context; a context never
initialized. -/
theorem witness_ExactlyOneFinalPerInit :
    (∃ s₁ t, three.code = 0 ∧ exec (.final 0 0x2000) three = .next s₁ ∧ s₁.code = 0 ∧
      Instr.init 0 ∉ [Instr.update 1 0x1000 3] ∧ runAll [.update 1 0x1000 3] s₁ = .next t) ∧
    (∃ t, (3 : CtxIdx).toNat < three.nctx ∧ (three.ctx? 3).map (·.phase) ≠ some .ready ∧
      Instr.init 3 ∉ [Instr.init 2] ∧ runAll [.init 2] three = .next t) :=
  ⟨⟨_, _, rfl, rfl, by decide, by decide, rfl⟩, ⟨_, by decide, by decide, by decide, rfl⟩⟩

/-- The overlapping ranges of PR6, and the empty message at address 0. -/
theorem witness_BlockWritesTheDigest :
    three.code = 0 ∧ three.mem.wf ∧ dataOk three.cfg 0x1000 3 ∧ dataOk three.cfg 0 0 ∧
    8 * (3 : Addr).toNat < 2 ^ 64 ∧ digestOk three.cfg 0x1000 :=
  ⟨rfl, by decide, .inr (by decide), .inl rfl, by decide, ⟨by decide, by decide, by decide⟩⟩

/-- A context in each phase: 0, 2 and 3. -/
theorem witness_BlockCtxWritesTheDigest :
    three.code = 0 ∧ three.mem.wf ∧ (3 : CtxIdx).toNat < three.nctx ∧
    (three.ctx? 0).map (·.phase) = some .ready ∧ (three.ctx? 2).map (·.phase) = some .finalized ∧
    (three.ctx? 3).map (·.phase) = some .uninitialized ∧ dataOk three.cfg 0x1000 3 ∧
    8 * (3 : Addr).toNat < 2 ^ 64 ∧ digestOk three.cfg 0x1000 :=
  ⟨rfl, by decide, by decide, rfl, rfl, rfl, .inr (by decide), by decide,
    ⟨by decide, by decide, by decide⟩⟩

/-- Two chunks, one of them empty, on a context that is Finalized before. -/
theorem witness_StreamingComputesSha256 :
    three.code = 0 ∧ three.mem.wf ∧ (2 : CtxIdx).toNat < three.nctx ∧
    (∀ p ∈ [((0x1000 : Addr), (3 : Addr)), (0, 0)], dataOk three.cfg p.1 p.2) ∧
    8 * (([((0x1000 : Addr), (3 : Addr)), (0, 0)]).map fun p => p.2.toNat).sum < 2 ^ 64 ∧
    digestOk three.cfg 0x1000 :=
  ⟨rfl, by decide, by decide, List.forall_mem_cons.2 ⟨.inr (by decide),
      List.forall_mem_cons.2 ⟨.inl rfl, fun _ h => by cases h⟩⟩, by decide,
    ⟨by decide, by decide, by decide⟩⟩

theorem witness_BlockAgreesWithTheSequence :
    ∃ t t', three.code = 0 ∧ exec (.block 0x1000 3 0x2000) three = .next t ∧
      runAll [.init 2, .update 2 0x1000 3, .final 2 0x2000] three = .next t' ∧ t.code = 0 ∧
      t'.code = 0 :=
  ⟨_, _, rfl, rfl, rfl, by decide +kernel, by decide +kernel⟩

/-- Both clauses: no fault, and a fault of the digest address. -/
theorem witness_BlockCtxAgreesWithTheSequence :
    (∃ t t', three.code = 0 ∧ exec (.blockCtx 2 0x1000 3 0x2000) three = .next t ∧
      runAll [.init 2, .update 2 0x1000 3, .final 2 0x2000] three = .next t' ∧ t.code = 0) ∧
    (∃ t t', three.code = 0 ∧ exec (.blockCtx 2 0x1000 3 0) three = .next t ∧
      runAll [.init 2, .update 2 0x1000 3, .final 2 0] three = .next t' ∧ t.code = 6) :=
  ⟨⟨_, _, rfl, rfl, rfl, by decide +kernel⟩, ⟨_, _, rfl, rfl, rfl, by decide +kernel⟩⟩

/-- A command that completes, one that faults on a context that is not Ready, and one that names
another context. -/
theorem witness_PhasesFollowTheTable :
    (∃ t x y, three.code = 0 ∧ exec (.init 2) three = .next t ∧ three.ctx? 2 = some x ∧
      t.ctx? 2 = some y ∧ t.code = 0) ∧
    (∃ t x y, three.code = 0 ∧ exec (.final 2 0x2000) three = .next t ∧ three.ctx? 2 = some x ∧
      t.ctx? 2 = some y ∧ t.code ≠ 0 ∧ x.phase ≠ .ready) ∧
    (∃ t x y, three.code = 0 ∧ exec (.init 1) three = .next t ∧ three.ctx? 2 = some x ∧
      t.ctx? 2 = some y ∧ namedCtx (.init 1) ≠ some 2) :=
  ⟨⟨_, _, _, rfl, rfl, rfl, rfl, by decide⟩,
    ⟨_, _, _, rfl, rfl, rfl, rfl, by decide, by decide⟩,
    ⟨_, _, _, rfl, rfl, rfl, rfl, by decide⟩⟩

/-- A command that names a context, and BLOCK, which names none. -/
theorem witness_ContextsShareNoState :
    (∃ t, exec (.init 1) three = .next t) ∧ (namedCtx (.init 1)).map (·.toNat) ≠ some 0 ∧
    (∃ t, exec (.block 0 0 0x2000) three = .next t) ∧
    (namedCtx (.block 0 0 0x2000)).map (·.toNat) ≠ some 0 ∧
    (∀ a0 a1 a2, Instr.init 1 ≠ .block a0 a1 a2) :=
  ⟨⟨_, rfl⟩, by decide, ⟨_, rfl⟩, by decide, fun _ _ _ h => by cases h⟩

/-- The bytes just outside the digest range of FINAL; any byte for UPDATE, which has no digest. -/
theorem witness_OnlyTheDigestRangeIsWritten :
    (∃ t, exec (.final 0 0x2000) three = .next t) ∧
    (∀ a2, digestAddr (.final 0 0x2000) = some a2 → 0x1fff < a2.toNat ∨ a2.toNat + 32 ≤ 0x1fff) ∧
    (∀ a2, digestAddr (.final 0 0x2000) = some a2 → 0x2020 < a2.toNat ∨ a2.toNat + 32 ≤ 0x2020) ∧
    (∃ t, exec (.update 1 0x1000 3) three = .next t) ∧
    (∀ a2, digestAddr (.update 1 0x1000 3) = some a2 → 0x2000 < a2.toNat ∨ a2.toNat + 32 ≤ 0x2000) :=
  ⟨⟨_, rfl⟩, fun a2 h => by cases h; decide, fun a2 h => by cases h; decide, ⟨_, rfl⟩,
    fun a2 h => by cases h⟩

/-- A command that completes, and one that faults. -/
theorem witness_AccessesAreOnceInOrderReadsFirst :
    (∃ t, three.code = 0 ∧ exec (.block 0x1000 3 0x1000) three = .next t ∧ t.code = 0) ∧
    (∃ t, three.code = 0 ∧ exec (.block 0x1000 3 0) three = .next t ∧ t.code ≠ 0) :=
  ⟨⟨_, rfl, rfl, by decide⟩, ⟨_, rfl, rfl, by decide⟩⟩

/-- A command whose accesses are both read and write, of three and of 32 bytes. -/
theorem witness_AccessesAreAdmitted :
    ∃ t, exec (.block 0x1000 3 0x2000) three = .next t ∧ t.bus.length = 35 ∧
      .read 0x1002 ∈ t.bus := ⟨_, rfl, by decide +kernel, by decide +kernel⟩

/-- Two different states that look alike: they differ in a byte of `BUF` beyond `BUFCNT`. -/
theorem witness_UnspecifiedValuesAreNeverObserved :
    ∃ t t', countsInRange three ∧
      countsInRange (three.setCtx 0 { context .ready 3 24 with
        buf := (Vector.replicate 64 0x61).set 3 0x99 }) ∧
      visible three = visible (three.setCtx 0 { context .ready 3 24 with
        buf := (Vector.replicate 64 0x61).set 3 0x99 }) ∧
      three ≠ three.setCtx 0 { context .ready 3 24 with
        buf := (Vector.replicate 64 0x61).set 3 0x99 } ∧
      exec (.final 0 0x2000) three = .next t ∧
      exec (.final 0 0x2000) (three.setCtx 0 { context .ready 3 24 with
        buf := (Vector.replicate 64 0x61).set 3 0x99 }) = .next t' :=
  ⟨_, _, by unfold countsInRange; decide, by unfold countsInRange; decide +kernel,
    by decide +kernel, by decide +kernel, rfl, rfl⟩

theorem witness_InitForgetsTheEarlierContents :
    ∃ t t', three.code = 0 ∧ (0 : CtxIdx).toNat < three.nctx ∧ exec (.init 0) three = .next t ∧
      exec (.init 0) (three.setCtx 0 (context .finalized 63 504)) = .next t' :=
  ⟨_, _, rfl, by decide, rfl, rfl⟩

theorem witness_LayoutHasNoEffect : ∃ t, exec (.init 0) three = .next t := ⟨_, rfl⟩

/-- The helper machine meets the invariant, before an event of each kind that steps. -/
theorem witness_StepKeepsTheInvariant :
    (withEvents three [.command updateRecord]).Inv ∧
    (∃ t, step (withEvents three [.command updateRecord]) = .next t) ∧
    (∃ t, step (withEvents three [.reset]) = .next t) ∧
    (∃ t, step (withEvents three [.store 0xffffffff 7]) = .next t) ∧ (∃ t, step three = .next t) :=
  ⟨⟨⟨by decide, by decide⟩, by decide, by unfold Ctx.countsAgree; decide, by decide, by decide,
    by decide, by decide, by decide⟩, ⟨_, rfl⟩, ⟨_, rfl⟩, ⟨_, rfl⟩, ⟨_, rfl⟩⟩

/-- The largest amount and the top bit. -/
theorem witness_RotateAndShift : 1 ≤ 31 ∧ 31 ≤ 31 ∧ 31 < 32 := by decide

theorem witness_ChoiceAndMajorityBitwise : (31 : Nat) < 32 := by decide

theorem witness_ByteOrderIsBigEndian : (7 : Nat) < 8 := by decide

/-- The first and the last word of the recurrence. -/
theorem witness_ScheduleFollowsTheRecurrence : (16 : Nat) ≤ 16 ∧ 16 < 64 ∧ 16 ≤ 63 ∧ 63 < 64 := by
  decide

theorem witness_CompressIsSixtyFourRounds : (63 : Nat) < 64 := by decide

end Sys2Proof.Tests
end

/-! # Proofs: byte order, the host's store, what an effect changes, the parameters without effect, and
the invariant of the machine -/

/-! ## Byte order (spec/00_scope.md R10, spec/20_memory.md R52) -/

section

namespace Sys2Proof.Machine

/-- Byte `i` of `BE32bytes(w)` as a number: bits `31 - 8i` down to `24 - 8i`. -/
theorem be32Bytes_getD_toNat (w : Word) {i : Nat} (hi : i < 4) :
    ((be32Bytes w).getD i 0).toNat = w.toNat / 2 ^ (24 - 8 * i) % 256 := by
  interval_cases i <;>
    simp [be32Bytes, BitVec.extractLsb'_toNat, Nat.shiftRight_eq_div_pow]

/-- Byte `i` of `BE64bytes(v)` as a number: bits `63 - 8i` down to `56 - 8i`. -/
theorem be64Bytes_getD_toNat (v : BitVec 64) {i : Nat} (hi : i < 8) :
    ((be64Bytes v).getD i 0).toNat = v.toNat / 2 ^ (56 - 8 * i) % 256 := by
  rcases Nat.lt_or_ge i 4 with h | h
  · rw [be64Bytes, List.getD_append _ _ _ _ (by simpa using h), be32Bytes_getD_toNat _ h,
      BitVec.extractLsb'_toNat, Nat.shiftRight_eq_div_pow]
    interval_cases i <;> norm_num <;> omega
  · rw [be64Bytes, List.getD_append_right _ _ _ _ (by simpa using h), be32Bytes_length,
      be32Bytes_getD_toNat _ (by omega), BitVec.extractLsb'_toNat, Nat.shiftRight_eq_div_pow]
    interval_cases i <;> norm_num <;> omega

/-- Appending a byte below multiplies by 256. -/
theorem toNat_append_byte {n : Nat} (x : BitVec n) (b : Byte) :
    (x ++ b).toNat = x.toNat * 256 + b.toNat := by
  rw [BitVec.toNat_append, ← Nat.shiftLeft_add_eq_or_of_lt b.isLt, Nat.shiftLeft_eq]

theorem be32_toNat (b0 b1 b2 b3 : Byte) :
    (be32 b0 b1 b2 b3).toNat =
      b0.toNat * 2 ^ 24 + b1.toNat * 2 ^ 16 + b2.toNat * 2 ^ 8 + b3.toNat := by
  rw [be32, toNat_append_byte, toNat_append_byte, toNat_append_byte]
  ring

/-- `BE32` is the right inverse of `BE32bytes` (R10). -/
theorem be32Bytes_be32 (b0 b1 b2 b3 : Byte) : be32Bytes (be32 b0 b1 b2 b3) = [b0, b1, b2, b3] := by
  have hlt : ∀ b : Byte, b.toNat < 256 := fun b => b.isLt
  have h0 := hlt b0
  have h1 := hlt b1
  have h2 := hlt b2
  have h3 := hlt b3
  simp only [be32Bytes, List.cons.injEq, and_true]
  refine ⟨?_, ?_, ?_, ?_⟩ <;> apply BitVec.eq_of_toNat_eq <;>
    rw [BitVec.extractLsb'_toNat, be32_toNat, Nat.shiftRight_eq_div_pow] <;> omega

/-- The bytes of word `j` of a list stand at `4j` to `4j + 3`. -/
theorem flatMap_be32Bytes_getD {i : Nat} (hi : i < 4) (ws : List Word) {j : Nat}
    (hj : j < ws.length) :
    (ws.flatMap be32Bytes).getD (4 * j + i) 0 = (be32Bytes (ws.getD j 0)).getD i 0 := by
  induction ws generalizing j with
  | nil => simp at hj
  | cons w ws ih =>
    rw [List.flatMap_cons]
    cases j with
    | zero => rw [List.getD_append _ _ _ _ (by simpa using hi)]; simp
    | succ j =>
      rw [List.getD_append_right _ _ _ _ (by rw [be32Bytes_length]; omega), be32Bytes_length,
        show 4 * (j + 1) + i - 4 = 4 * j + i by omega, ih (by simpa using hj), List.getD_cons_succ]

/-- Byte `4j + i` of a digest is byte `i` of word `j` (R154). -/
theorem digestBytes_getD (h : HashWords) (j : Fin 8) {i : Nat} (hi : i < 4) :
    (digestBytes h).getD (4 * j.val + i) 0 = (be32Bytes h[j]).getD i 0 := by
  rw [digestBytes, flatMap_be32Bytes_getD hi _ (by simp)]
  simp

end Sys2Proof.Machine

open Sys2Proof.Machine

/-- Settles O49: the bytes of a word and of a 64-bit value as quotients, and the inverse of `BE32`. -/
theorem byteOrderIsBigEndian : Obligations.ByteOrderIsBigEndian := by
  unfold Obligations.ByteOrderIsBigEndian
  exact ⟨fun _ => rfl, be32_toNat, be32Bytes_be32, fun v _ hi => be64Bytes_getD_toNat v hi⟩

/-- Settles O29: byte `4j + i` of a digest is byte `i` of word `j`. -/
theorem digestIsBigEndian : Obligations.DigestIsBigEndian := by
  unfold Obligations.DigestIsBigEndian
  refine fun h => ⟨digestBytes_length h, fun j i hi => ?_⟩
  rw [digestBytes_getD h j hi, be32Bytes_getD_toNat _ hi]

end

/-! ## The host's store (spec/00_scope.md R6, spec/70_reset_and_hazards.md R237) -/

section

namespace Sys2Proof.Machine

/-- A store at an address that exists writes that byte of host memory (R6, R50). -/
theorem hostStore_of_lt {s : State} {a : Nat} (v : Byte) (ha : a < 2 ^ s.cfg.aw) :
    hostStore a v s = .next (s.setMem (s.mem.write a v)) := if_pos ha

/-- There is no byte at or beyond `2^AW` to store to (R50). -/
theorem hostStore_of_not_lt {s : State} {a : Nat} (v : Byte) (ha : ¬ a < 2 ^ s.cfg.aw) :
    hostStore a v s = .fault .noSuchAddress := if_neg ha

end Sys2Proof.Machine

open Sys2Proof.Machine

/-- Settles O13: the step is one `Memory.write`, with the read-after-write laws of host memory. -/
theorem hostStoreChangesOneByte : Obligations.HostStoreChangesOneByte := by
  unfold Obligations.HostStoreChangesOneByte
  intro s a v rest hhost hmem
  rw [step_event hhost]
  split
  · next ha =>
    exact ⟨_, hostStore_of_lt v ha, Memory.read_write_self hmem a v,
      fun b hb => Memory.read_write_ne s.mem v hb, rfl⟩
  · next ha => exact hostStore_of_not_lt v ha

end

/-! ## What the effect of a command changes -/

section

namespace Sys2Proof.Machine

open Sys2Proof.Claim

/-- What holds of the state itself, and of the effect on the named context where there is one, holds
after the effect. -/
theorem State.onCtx_cases {P : State → Prop} {s : State} {c : CtxIdx} {f : Ctx → State} (hs : P s)
    (hf : ∀ x, P (f x)) : P (s.onCtx c f) := by
  cases h : s.ctx? c with
  | none => simpa [State.onCtx, h] using hs
  | some x => simpa [State.onCtx, h] using hf x

/-- An effect that writes the named context applies a function to it, in place (R7). -/
theorem State.onCtx_ctxs {s : State} {c : CtxIdx} {f : Ctx → State} (g : Ctx → Ctx)
    (hf : ∀ x, (f x).ctxs = s.ctxs.set c.toNat (g x)) :
    (s.onCtx c f).ctxs = s.ctxs.modify c.toNat g := by
  rw [List.modify_eq_set_getElem?]
  cases h : s.ctx? c with
  | none => simp [State.onCtx, h, show s.ctxs[c.toNat]? = none from h]
  | some x => simp [State.onCtx, h, show s.ctxs[c.toNat]? = some x from h, hf]

/-- What a command's effect makes of the context it names (R130, R140, R155, R175). -/
def namedCtxAfter (s : State) : Instr → Ctx → Ctx
  | .init _, x => initBody s.cfg.shaMagic x
  | .update _ a0 a1, x =>
    if a1 = 0 then x else redrawTail s.draws (updateBody x (s.message a0 a1))
  | .final _ _, _ | .blockCtx _ _ _ _, _ => Ctx.drawn s.draws .finalized
  | .block _ _ _, x => x

theorem namedCtxAfter_update_zero (s : State) (c : CtxIdx) (a0 : Addr) :
    namedCtxAfter s (.update c a0 0) = id := rfl

theorem namedCtxAfter_update {s : State} {c : CtxIdx} {a0 a1 : Addr} (h0 : a1 ≠ 0) (x : Ctx) :
    namedCtxAfter s (.update c a0 a1) x =
      redrawTail s.draws (updateBody x (s.message a0 a1)) := if_neg h0

/-- An effect changes the contexts by `namedCtxAfter` on the one named, and not at all where none
is. -/
theorem effectOf_ctxs (i : Instr) (s : State) :
    (effectOf i s).ctxs =
      (namedCtx i).elim s.ctxs fun c => s.ctxs.modify c.toNat (namedCtxAfter s i) := by
  cases i with
  | init c => exact State.onCtx_ctxs _ fun _ => rfl
  | update c a0 a1 =>
    by_cases h0 : a1 = 0
    · subst h0
      simp only [effectOf, updateEffect_zero, namedCtx, Option.elim, namedCtxAfter_update_zero,
        List.modify_id]
    · simp only [effectOf, updateEffect, if_neg h0, namedCtx, Option.elim]
      exact State.onCtx_ctxs _ fun x => by rw [namedCtxAfter_update h0]; rfl
  | final c a2 => exact State.onCtx_ctxs _ fun _ => rfl
  | block a0 a1 a2 => rfl
  | blockCtx c a0 a1 a2 => exact State.onCtx_ctxs _ fun _ => rfl

/-- Only BLOCK writes `SCR` (R171, R176). -/
theorem effectOf_scr {i : Instr} (s : State) (hi : ∀ a0 a1 a2, i ≠ .block a0 a1 a2) :
    (effectOf i s).scr = s.scr := by
  cases i with
  | init c => exact State.onCtx_cases (P := (·.scr = s.scr)) rfl fun _ => rfl
  | update c a0 a1 =>
    simp only [effectOf, updateEffect]
    split
    · rfl
    · exact State.onCtx_cases (P := (·.scr = s.scr)) rfl fun _ => rfl
  | final c a2 => exact State.onCtx_cases (P := (·.scr = s.scr)) rfl fun _ => rfl
  | block a0 a1 a2 => exact absurd rfl (hi a0 a1 a2)
  | blockCtx c a0 a1 a2 => exact State.onCtx_cases (P := (·.scr = s.scr)) rfl fun _ => rfl

/-- Memory `m'` is `m`, or `m` with 32 bytes written at the digest address of the command. -/
def digestWritten (i : Instr) (m m' : Memory) : Prop :=
  m' = m ∨ ∃ a2 bytes, digestAddr i = some a2 ∧ bytes.length = 32 ∧ m' = m.writeBytes a2.toNat bytes

/-- An effect writes host memory in the digest range only (R55, R154). -/
theorem effectOf_mem (i : Instr) (s : State) : digestWritten i s.mem (effectOf i s).mem := by
  cases i with
  | init c => exact State.onCtx_cases (P := (digestWritten _ s.mem ·.mem)) (.inl rfl) fun _ => .inl rfl
  | update c a0 a1 =>
    simp only [effectOf, updateEffect]
    split
    · exact .inl rfl
    · exact State.onCtx_cases (P := (digestWritten _ s.mem ·.mem)) (.inl rfl) fun _ => .inl rfl
  | final c a2 =>
    exact State.onCtx_cases (P := (digestWritten _ s.mem ·.mem)) (.inl rfl)
      fun x => .inr ⟨a2, finalDigest x, rfl, finalDigest_length x, rfl⟩
  | block a0 a1 a2 =>
    exact .inr ⟨a2, oneShotDigest s s.scr a0 a1, rfl, oneShotDigest_length _ _ _ _, rfl⟩
  | blockCtx c a0 a1 a2 =>
    exact State.onCtx_cases (P := (digestWritten _ s.mem ·.mem)) (.inl rfl)
      fun x => .inr ⟨a2, oneShotDigest s x a0 a1, rfl, oneShotDigest_length _ _ _ _, rfl⟩

/-- An effect keeps the number of contexts and every context the command does not name (R7). -/
theorem effectOf_otherCtxs (i : Instr) (s : State) :
    (effectOf i s).ctxs.length = s.ctxs.length ∧
      ∀ n, (namedCtx i).map (·.toNat) ≠ some n → (effectOf i s).ctxs[n]? = s.ctxs[n]? := by
  rw [effectOf_ctxs]
  cases namedCtx i with
  | none => exact ⟨rfl, fun _ _ => rfl⟩
  | some c =>
    exact ⟨List.length_modify .., fun n hn => List.getElem?_modify_ne _ _ (by simpa using hn)⟩

end Sys2Proof.Machine

open Sys2Proof.Machine Sys2Proof.Claim

/-- Settles O38: by the inversion lemma of `exec`; a halt and a fault write no context, and an effect
writes the named one only. -/
theorem contextsShareNoState : Obligations.ContextsShareNoState := by
  unfold Obligations.ContextsShareNoState
  intro i s t h
  rcases exec_inv h with ⟨-, rfl⟩ | ⟨-, v, -, rfl⟩ | ⟨-, -, rfl⟩
  · exact ⟨rfl, fun _ _ => rfl, rfl, rfl, fun _ => rfl⟩
  · exact ⟨rfl, fun _ _ => rfl, rfl, rfl, fun _ => rfl⟩
  · obtain ⟨hlen, hctxs⟩ := effectOf_otherCtxs i s
    obtain ⟨-, -, -, hcfg, hhost, -⟩ := effectOf_control i s
    exact ⟨hlen, hctxs, hcfg, hhost, effectOf_scr s⟩

end

/-! ## The parameters without effect (spec/10_state.md R36) -/

section

namespace Sys2Proof.Machine

/-- The state under another LAYOUT and CTX_MIN_SIZE (R8 P9, P10). -/
def State.relayout (s : State) (l : Layout) (n : Nat) : State :=
  { s with cfg := { s.cfg with layout := l, ctxMinSize := n } }

theorem State.onCtx_relayout {s : State} {c : CtxIdx} {f f' : Ctx → State} {l : Layout} {n : Nat}
    (hf : ∀ x, f' x = (f x).relayout l n) :
    (s.relayout l n).onCtx c f' = (s.onCtx c f).relayout l n := by
  have hctx : (s.relayout l n).ctx? c = s.ctx? c := rfl
  cases h : s.ctx? c with
  | none => simp only [State.onCtx, hctx, h]
  | some x => simp only [State.onCtx, hctx, h, hf]

/-- The effects do not depend on LAYOUT and CTX_MIN_SIZE. -/
theorem effectOf_relayout (i : Instr) (s : State) (l : Layout) (n : Nat) :
    effectOf i (s.relayout l n) = (effectOf i s).relayout l n := by
  cases i with
  | init c => exact State.onCtx_relayout fun _ => rfl
  | update c a0 a1 =>
    simp only [effectOf, updateEffect]
    split
    · rfl
    · exact State.onCtx_relayout fun _ => rfl
  | final c a2 => exact State.onCtx_relayout fun _ => rfl
  | block a0 a1 a2 => rfl
  | blockCtx c a0 a1 a2 => exact State.onCtx_relayout fun _ => rfl

/-- The checks do not depend on LAYOUT and CTX_MIN_SIZE. -/
theorem checksOf_relayout (i : Instr) (s : State) (l : Layout) (n : Nat) :
    checksOf (s.relayout l n) i = checksOf s i := by
  cases i <;> rfl

end Sys2Proof.Machine

open Sys2Proof.Machine

/-- Settles O44: neither the halt nor a check, a fault or an effect reads the two parameters. -/
theorem layoutHasNoEffect : Obligations.LayoutHasNoEffect := by
  unfold Obligations.LayoutHasNoEffect
  intro i s t l n h
  change exec i (s.relayout l n) = .next (t.relayout l n)
  have hhalt : (s.relayout l n).halted = s.halted := rfl
  rw [exec_eq, checksOf_relayout]
  rcases exec_inv h with ⟨hh, rfl⟩ | ⟨hh, v, hv, rfl⟩ | ⟨hh, hv, rfl⟩
  · rw [attempt_halted (hhalt.trans hh)]
  · rw [attempt_fault (hhalt.trans hh) hv]
    rfl
  · rw [attempt_effect (hhalt.trans hh) hv, effectOf_relayout]

end

/-! ## The invariant of the machine (spec/10_state.md, spec/20_memory.md R50) -/

section

namespace Sys2Proof

/-- A context index is an `AW`-bit value, as `AW` is at least 16 (R8 P6, R72). -/
theorem fits_setWidth {aw : Nat} (haw : 16 ≤ aw) (c : CtxIdx) : fits aw (c.setWidth 64) = true := by
  have hc : c.toNat < 2 ^ 8 := c.isLt
  have hle : 2 ^ 8 ≤ 2 ^ aw := Nat.pow_le_pow_right (by omega) (by omega)
  have heq : (c.setWidth 64).toNat = c.toNat := BitVec.toNat_setWidth_of_le (by omega)
  simpa [fits, heq] using lt_of_lt_of_le hc hle

theorem fits_zero (aw : Nat) : fits aw 0 = true := by simp [fits]

/-- The command a well-formed record decodes to is well formed: its operands are operand fields of the
record (R70, R73). -/
theorem decode_wellFormed {aw : Nat} {r : Record} {i : Instr} (hr : r.wellFormed aw = true)
    (hd : decode r = .ok i) : i.wellFormed aw = true := by
  simp only [Record.wellFormed, Bool.and_eq_true] at hr
  obtain ⟨⟨h0, h1⟩, h2⟩ := hr
  simp only [decode] at hd
  repeat' split at hd
  all_goals cases hd
  all_goals simp [Instr.wellFormed, h0, h1, h2]

end Sys2Proof

namespace Sys2Proof.Machine

open Sys2Proof.Claim

/-! ### What a fault records -/

/-- Whatever check fails, the value it gives `FARG` is an `AW`-bit value (R33). -/
def ArgsFit (aw : Nat) (cs : List (Option Violation)) : Prop :=
  ∀ v, some v ∈ cs → fits aw v.arg = true

theorem ArgsFit.nil {aw : Nat} : ArgsFit aw [] := fun _ h => absurd h List.not_mem_nil

theorem ArgsFit.cons_some {aw : Nat} {v : Violation} {cs : List (Option Violation)}
    (hv : fits aw v.arg = true) (hcs : ArgsFit aw cs) : ArgsFit aw (some v :: cs) := by
  intro w hw
  rcases List.mem_cons.1 hw with h | h
  · cases h
    exact hv
  · exact hcs w h

theorem ArgsFit.cons_require {aw : Nat} {ok : Bool} {k : FaultCode} {a : Addr}
    {cs : List (Option Violation)} (ha : fits aw a = true) (hcs : ArgsFit aw cs) :
    ArgsFit aw (require ok k a :: cs) := by
  cases ok with
  | false => exact .cons_some ha hcs
  | true => exact fun w hw => hcs w (by simpa using hw)

/-- Every check of a well-formed command records the context index or an operand (R200). -/
theorem checksOf_argsFit {aw : Nat} (haw : 16 ≤ aw) (s : State) {i : Instr}
    (hi : i.wellFormed aw = true) : ArgsFit aw (checksOf s i) := by
  have hctx := fits_setWidth haw
  cases i with
  | init c => exact .cons_require (hctx c) .nil
  | update c a0 a1 =>
    obtain ⟨h0, h1⟩ : fits aw a0 = true ∧ fits aw a1 = true := by
      simpa [Instr.wellFormed] using hi
    exact .cons_require (hctx c) (.cons_require (hctx c)
      (.cons_require h0 (.cons_require h0 (.cons_require h1 .nil))))
  | final c a2 =>
    exact .cons_require (hctx c) (.cons_require (hctx c) (.cons_require hi .nil))
  | block a0 a1 a2 =>
    obtain ⟨⟨h0, h1⟩, h2⟩ : (fits aw a0 = true ∧ fits aw a1 = true) ∧ fits aw a2 = true := by
      simpa [Instr.wellFormed] using hi
    exact .cons_require h0 (.cons_require h0 (.cons_require h1 (.cons_require h2 .nil)))
  | blockCtx c a0 a1 a2 =>
    obtain ⟨⟨h0, h1⟩, h2⟩ : (fits aw a0 = true ∧ fits aw a1 = true) ∧ fits aw a2 = true := by
      simpa [Instr.wellFormed] using hi
    exact .cons_require (hctx c)
      (.cons_require h0 (.cons_require h0 (.cons_require h1 (.cons_require h2 .nil))))

/-! ### The counts of a context -/

theorem Ctx.countsAgree_of_ne_ready {x : Ctx} (h : x.phase ≠ .ready) : x.countsAgree :=
  fun hr => absurd hr h

theorem initBody_countsAgree (w : Word) (x : Ctx) : (initBody w x).countsAgree := by
  simp [Ctx.countsAgree]

/-- UPDATE keeps the counts of a Ready context in agreement, as its length check excludes an overflow
of `BITCNT` (R27, R143, R145). -/
theorem updateBody_countsAgree {x : Ctx} {l : List Byte} (hx : x.countsAgree)
    (hlen : x.bitcnt.toNat + 8 * l.length < 2 ^ 64) : (updateBody x l).countsAgree := by
  intro hr
  obtain ⟨hcnt, hbits⟩ := hx (by simpa using hr)
  have hbitcnt : (updateBody x l).bitcnt.toNat = x.bitcnt.toNat + 8 * l.length := by
    rw [updateBody_bitcnt, BitVec.toNat_add, BitVec.toNat_ofNat]
    omega
  rw [updateBody_bufcnt l (by omega), hbitcnt]
  omega

theorem redrawTail_countsAgree {x : Ctx} (n : Nat) (hx : x.countsAgree) :
    (redrawTail n x).countsAgree := by
  simpa [Ctx.countsAgree] using hx

/-- A command whose checks pass leaves the context it names with agreeing counts (R27). -/
theorem namedCtxAfter_countsAgree {s : State} {i : Instr} {c : CtxIdx} {x : Ctx}
    (hi : namedCtx i = some c) (hc : s.ctx? c = some x) (hx : x.countsAgree)
    (hok : firstViolation (checksOf s i) = none) : (namedCtxAfter s i x).countsAgree := by
  cases i with
  | init d => exact initBody_countsAgree _ x
  | update d a0 a1 =>
    obtain rfl : d = c := by simpa [namedCtx] using hi
    have hlen : checkLength (s.bitsOf d) a1 = none :=
      firstViolation_eq_none.1 hok _ (by simp [checksOf])
    rw [checkLength_eq_none, State.bitsOf_some hc, ← State.message_length s a0 a1] at hlen
    rw [namedCtxAfter]
    split
    · exact hx
    · exact redrawTail_countsAgree _ (updateBody_countsAgree hx hlen)
  | final d a2 => exact Ctx.countsAgree_of_ne_ready (by simp [namedCtxAfter])
  | block a0 a1 a2 => exact hx
  | blockCtx d a0 a1 a2 => exact Ctx.countsAgree_of_ne_ready (by simp [namedCtxAfter])

/-- A command whose checks pass keeps the counts of every context in agreement. -/
theorem effectOf_countsAgree {s : State} {i : Instr} (hs : ∀ x ∈ s.ctxs, x.countsAgree)
    (hok : firstViolation (checksOf s i) = none) : ∀ x ∈ (effectOf i s).ctxs, x.countsAgree := by
  rw [effectOf_ctxs]
  cases hi : namedCtx i with
  | none => exact hs
  | some c =>
    simp only [Option.elim, List.modify_eq_set_getElem?]
    cases hc : s.ctxs[c.toNat]? with
    | none => exact hs
    | some x =>
      intro y hy
      rcases List.mem_or_eq_of_mem_set hy with hy | rfl
      · exact hs y hy
      · exact namedCtxAfter_countsAgree hi hc (hs x (List.mem_of_getElem? hc)) hok

/-! ### Host memory -/

/-- A command whose checks pass has its digest range below `2^AW` (R59). -/
theorem digestAddr_range {s : State} {i : Instr} {a2 : Addr} (hi : digestAddr i = some a2)
    (hok : firstViolation (checksOf s i) = none) : a2.toNat + 32 ≤ 2 ^ s.cfg.aw := by
  have hmem : checkDigest s.cfg a2 ∈ checksOf s i := by
    cases i <;> simp_all [digestAddr, checksOf]
  obtain ⟨-, hrange⟩ := checkDigest_eq_none.1 (firstViolation_eq_none.1 hok _ hmem)
  exact (rangeAdmitted_iff.1 hrange).1

/-- A command whose checks pass keeps host memory canonical and below `2^AW` (R50). -/
theorem effectOf_mem_wf {s : State} {i : Instr} (hwf : s.mem.wf)
    (hlt : ∀ x ∈ s.mem, x.1 < 2 ^ s.cfg.aw) (hok : firstViolation (checksOf s i) = none) :
    (effectOf i s).mem.wf ∧ ∀ x ∈ (effectOf i s).mem, x.1 < 2 ^ s.cfg.aw := by
  rcases effectOf_mem i s with h | ⟨a2, bytes, hi, hlen, h⟩
  · rw [h]
    exact ⟨hwf, hlt⟩
  · rw [h]
    exact ⟨Memory.writeBytes_wf hwf _ _,
      Memory.writeBytes_lt hlt _ _ (hlen ▸ digestAddr_range hi hok)⟩

/-! ### Each operation keeps the invariant -/

theorem State.Inv.setHost {s : State} (hs : s.Inv) (es : List HostEvent) : (s.setHost es).Inv where
  params := hs.params
  contexts := hs.contexts
  counts := hs.counts
  memForm := hs.memForm
  memRange := hs.memRange
  codeRange := hs.codeRange
  noFault := hs.noFault
  fargRange := hs.fargRange

/-- Taking a fault keeps the invariant, if `FARG` receives an `AW`-bit value (R203). -/
theorem State.Inv.raise {s : State} (hs : s.Inv) (k : FaultCode) (cmd : Word) {arg : Addr}
    (ha : fits s.cfg.aw arg = true) : (s.raise k cmd arg).Inv where
  params := hs.params
  contexts := hs.contexts
  counts := hs.counts
  memForm := hs.memForm
  memRange := hs.memRange
  codeRange := k.bits_range.2
  noFault h := absurd h k.bits_ne_zero
  fargRange := ha

/-- The reset event leaves no Ready context and no fault (R230). -/
theorem State.Inv.coreReset {s : State} (hs : s.Inv) : s.coreReset.Inv where
  params := hs.params
  contexts := by simpa using hs.contexts
  counts := by
    intro x hx
    obtain ⟨c, -, rfl⟩ : ∃ c, c < s.nctx ∧ Ctx.drawn (s.draws + c) .uninitialized = x := by
      simpa using hx
    exact Ctx.countsAgree_of_ne_ready (by simp)
  memForm := hs.memForm
  memRange := hs.memRange
  codeRange := by simp
  noFault _ := ⟨rfl, rfl⟩
  fargRange := fits_zero _

/-- The effect of a command whose checks pass keeps the invariant. -/
theorem State.Inv.effectOf {s : State} {i : Instr} (hs : s.Inv)
    (hok : firstViolation (checksOf s i) = none) : (effectOf i s).Inv := by
  obtain ⟨hcode, hfcmd, hfarg, hcfg, -, hnctx⟩ := effectOf_control i s
  obtain ⟨hwf, hlt⟩ := effectOf_mem_wf hs.memForm hs.memRange hok
  exact {
    params := hcfg ▸ hs.params
    contexts := hnctx ▸ hs.contexts
    counts := effectOf_countsAgree hs.counts hok
    memForm := hwf
    memRange := hcfg ▸ hlt
    codeRange := hcode ▸ hs.codeRange
    noFault := by rw [hcode, hfcmd, hfarg]; exact hs.noFault
    fargRange := by rw [hcfg, hfarg]; exact hs.fargRange }

/-- An attempt keeps the invariant, if its checks record `AW`-bit values and its effect keeps it. -/
theorem State.Inv.attempt {s : State} {cmd : Word} {cs : List (Option Violation)}
    {f : State → State} (hs : s.Inv) (hargs : ArgsFit s.cfg.aw cs)
    (hf : firstViolation cs = none → (f s).Inv) : (attempt cmd cs f s).Inv := by
  cases hh : s.halted with
  | true =>
    rw [attempt_halted hh]
    exact hs
  | false =>
    cases hv : firstViolation cs with
    | some v =>
      rw [attempt_fault hh hv]
      exact hs.raise _ _ (hargs v (firstViolation_mem hv))
    | none =>
      rw [attempt_effect hh hv]
      exact hf hv

/-- A command record given to the core keeps the invariant, whatever it decodes to (R77, R203). -/
theorem State.Inv.issue {s t : State} {r : Record} (hs : s.Inv) (h : issue r s = .next t) :
    t.Inv := by
  cases hw : r.wellFormed s.cfg.aw with
  | false =>
    rw [issue_wide hw] at h
    cases h
  | true =>
    cases hd : decode r with
    | ok i =>
      rw [issue_ok hw hd, exec_eq] at h
      cases h
      exact hs.attempt (checksOf_argsFit hs.params.1 s (decode_wellFormed hw hd)) hs.effectOf
    | error e =>
      rw [issue_illegal hw hd] at h
      cases h
      exact hs.attempt (.cons_some (fits_zero _) .nil) fun _ => hs

/-- A store of the host keeps the invariant (R6, R50). -/
theorem State.Inv.hostStore {s t : State} {a : Nat} {v : Byte} (hs : s.Inv)
    (h : hostStore a v s = .next t) : t.Inv := by
  by_cases ha : a < 2 ^ s.cfg.aw
  · rw [hostStore_of_lt v ha] at h
    cases h
    exact { hs with
      memForm := Memory.write_wf hs.memForm a v
      memRange := Memory.write_lt hs.memRange ha }
  · rw [hostStore_of_not_lt v ha] at h
    cases h

/-- Every event of the host keeps the invariant. -/
theorem State.Inv.takeEvent {s t : State} {e : HostEvent} (hs : s.Inv)
    (h : takeEvent e s = .next t) : t.Inv := by
  cases e with
  | command r => exact hs.issue h
  | reset =>
    cases h
    exact hs.coreReset
  | store a v => exact hs.hostStore h
  | concurrent r₁ r₂ => cases h

end Sys2Proof.Machine

open Sys2Proof.Machine

/-- Settles O45: an idle step keeps the state, and each event of the host keeps the invariant. -/
theorem stepKeepsTheInvariant : Obligations.StepKeepsTheInvariant := by
  unfold Obligations.StepKeepsTheInvariant
  intro s t hs h
  cases hhost : s.host with
  | nil =>
    rw [step_idle hhost] at h
    cases h
    exact hs
  | cons e rest =>
    rw [step_event hhost] at h
    exact (hs.setHost rest).takeEvent h

end

/-! # Proofs: reset, the read port, the step, the halt and the faults -/

/-! ## Reset (spec/10_state.md R37, spec/70_reset_and_hazards.md R230) -/

section

namespace Sys2Proof.Machine

/-- After a reset every context is Uninitialized (R37). -/
theorem State.afterReset_phase {cfg : Params} {nctx n : Nat} {mem : Memory} {host : List HostEvent}
    {bus : List BusAccess} {x : Ctx} (hx : x ∈ (State.afterReset cfg nctx n mem host bus).ctxs) :
    x.phase = .uninitialized := by
  obtain ⟨c, -, rfl⟩ := List.mem_map.1 hx
  rfl

end Sys2Proof.Machine

open Sys2Proof.Machine

/-- Settles O10: each context is a draw with PHASE Uninitialized, and the other registers are
written out in the reset state. -/
theorem resetLeavesTheSpecsValues : Obligations.ResetLeavesTheSpecsValues := by
  unfold Obligations.ResetLeavesTheSpecsValues
  exact ⟨fun _ => State.afterReset_phase, rfl, rfl, rfl, rfl, rfl, rfl⟩

/-- Settles O46: no context is Ready after reset, and memory is empty. -/
theorem resetMeetsTheInvariant : Obligations.ResetMeetsTheInvariant := by
  unfold Obligations.ResetMeetsTheInvariant
  exact {
    params := ⟨by decide, by decide⟩
    contexts := by decide
    counts := fun x hx => Ctx.countsAgree_of_ne_ready (by simp [State.afterReset_phase hx])
    memForm := State.reset_mem_wf
    memRange := fun x hx => absurd hx List.not_mem_nil
    codeRange := by decide
    noFault := fun _ => ⟨rfl, rfl⟩
    fargRange := Sys2Proof.fits_zero _ }

end

/-! ## The read port (spec/10_state.md R32, R34) -/

section

namespace Sys2Proof.Machine

/-- STATUS as the port gives it: `CODE`, and 0 in every bit above (R32). -/
theorem State.readPort_status (s : State) : s.readPort 0 = some (BitVec.ofNat 64 s.code.toNat) := by
  simp only [State.readPort, State.status, BitVec.ofNat_toNat]
  rw [BitVec.setWidth_setWidth (by omega)]

theorem State.readPort_fcmd (s : State) : s.readPort 1 = some (BitVec.ofNat 64 s.fcmd.toNat) := by
  simp only [State.readPort, BitVec.ofNat_toNat]

/-- Numbers from 3 on name no register (R34). -/
theorem State.readPort_none (s : State) {n : Nat} (hn : 3 ≤ n) : s.readPort n = none := by
  obtain ⟨k, rfl⟩ := Nat.exists_eq_add_of_le' hn
  rfl

end Sys2Proof.Machine

open Sys2Proof.Machine

/-- Settles O15: the three registers, each by its own lemma. -/
theorem readPortShowsTheFaultRegisters : Obligations.ReadPortShowsTheFaultRegisters := by
  unfold Obligations.ReadPortShowsTheFaultRegisters
  exact fun s => ⟨s.readPort_status, s.readPort_fcmd, rfl, fun _ => s.readPort_none⟩

end

/-! ## The step, the halt and the faults (spec/60_exceptions.md R203, R204) -/

section

namespace Sys2Proof.Machine

/-- A halted core drops a command record without effect, whatever it decodes to (R203). -/
theorem issue_halted {r : Record} {s t : State} (hh : s.halted = true)
    (h : issue r s = .next t) : t = s := by
  cases hw : r.wellFormed s.cfg.aw with
  | false =>
    rw [issue_wide hw] at h
    cases h
  | true =>
    cases hd : decode r with
    | ok i =>
      rw [issue_ok hw hd, exec_eq, attempt_halted hh] at h
      cases h
      rfl
    | error e =>
      rw [issue_illegal hw hd, attempt_halted hh] at h
      cases h
      rfl

/-- A store of the host changes host memory only (R6, R237). -/
theorem hostStore_eq_setMem {a : Nat} {v : Byte} {s t : State} (h : hostStore a v s = .next t) :
    t = s.setMem (s.mem.write a v) := by
  by_cases ha : a < 2 ^ s.cfg.aw
  · rw [hostStore_of_lt v ha] at h
    cases h
    rfl
  · rw [hostStore_of_not_lt v ha] at h
    cases h

/-- On a halted core every event but reset leaves the core as it is: at most host memory changes. -/
theorem takeEvent_halted {e : HostEvent} {s t : State} (hh : s.halted = true)
    (h : takeEvent e s = .next t) (he : e ≠ .reset) : ∃ m, t = s.setMem m := by
  cases e with
  | command r => exact ⟨s.mem, issue_halted hh h⟩
  | reset => exact absurd rfl he
  | store a v => exact ⟨_, hostStore_eq_setMem h⟩
  | concurrent r₁ r₂ => cases h

end Sys2Proof.Machine

open Sys2Proof.Machine

/-- Settles O5: the step takes the event, and the record's decoding is the command to run. -/
theorem stepRunsTheDecodedCommand : Obligations.StepRunsTheDecodedCommand := by
  unfold Obligations.StepRunsTheDecodedCommand
  intro s r rest i hhost hw hd
  rw [step_event hhost]
  exact issue_ok (s := s.setHost rest) hw hd

/-- Settles O8: an idle step keeps the state, and on a halted core an event but reset changes host
memory only. -/
theorem onlyResetLeavesTheHalt : Obligations.OnlyResetLeavesTheHalt := by
  unfold Obligations.OnlyResetLeavesTheHalt
  intro s t hcode h hreset
  cases hhost : s.host with
  | nil =>
    rw [step_idle hhost] at h
    cases h
    exact ⟨rfl, rfl, rfl, rfl, rfl⟩
  | cons e rest =>
    rw [step_event hhost] at h
    have hh : (s.setHost rest).halted = true := s.halted_iff.2 hcode
    obtain ⟨m, rfl⟩ := takeEvent_halted hh h (by simpa [hhost] using hreset)
    exact ⟨rfl, rfl, rfl, rfl, rfl⟩

/-- Settles O21: by the inversion lemma of `exec`; a halt and an effect write no fault register, and a
fault writes the three only. -/
theorem faultsArePrecise : Obligations.FaultsArePrecise := by
  unfold Obligations.FaultsArePrecise
  intro i s t h
  rcases exec_inv h with ⟨-, rfl⟩ | ⟨hh, v, -, rfl⟩ | ⟨-, -, rfl⟩
  · rw [if_pos rfl]
    exact ⟨rfl, rfl⟩
  · have hcode : s.code = 0 := s.not_halted_iff.1 hh
    have hne : ¬ (s.raise v.code (Sys2Proof.encode i).cmd v.arg).code = s.code :=
      hcode.symm ▸ v.code.bits_ne_zero
    obtain ⟨hlo, hhi⟩ := v.code.bits_range
    rw [if_neg hne]
    exact ⟨hcode, hlo, hhi, rfl⟩
  · obtain ⟨hcode, hfcmd, hfarg, -, -, -⟩ := effectOf_control i s
    rw [if_pos hcode]
    exact ⟨hfcmd, hfarg⟩

end

/-! # Proofs: UPDATE and the stream of bytes (spec/42_driver.md R140 to R147) -/

/-! ## The complete blocks of a stream (R144) -/

section

namespace Sys2Proof.Machine

open Sys2Proof.Claim

theorem blocksOf_of_lt {l : List Byte} (hl : l.length < 64) : blocksOf l = [] := by
  simp [blocksOf, Nat.div_eq_of_lt hl]

/-- A block in front of a stream is its first complete block. -/
theorem blocksOf_block_append (blk : Block) (l : List Byte) :
    blocksOf (blk.toList ++ l) = blk :: blocksOf l := by
  have hlen : blk.toList.length = 64 := blk.length_toList
  have hcount : (blk.toList ++ l).length / 64 = l.length / 64 + 1 := by
    rw [List.length_append, hlen]
    omega
  have hhead : (Vector.ofFn fun k : Fin 64 => (blk.toList ++ l).getD (64 * 0 + k.val) 0) = blk := by
    ext k hk
    simp [List.getElem?_append_left]
  have htail : ∀ i k, (blk.toList ++ l).getD (64 * (i + 1) + k) 0 = l.getD (64 * i + k) 0 := by
    intro i k
    rw [List.getD_append_right _ _ _ _ (by omega), hlen]
    congr 1
    omega
  rw [blocksOf, hcount, List.range_succ_eq_map, List.map_cons, hhead, List.map_map]
  simp only [Function.comp_def, Nat.succ_eq_add_one, htail, blocksOf]

theorem hashOf_of_lt (h : HashWords) {l : List Byte} (hl : l.length < 64) : hashOf h l = h := by
  rw [hashOf, blocksOf_of_lt hl, List.foldl_nil]

theorem hashOf_block_append (h : HashWords) (blk : Block) (l : List Byte) :
    hashOf h (blk.toList ++ l) = hashOf (compress h blk) l := by
  rw [hashOf, blocksOf_block_append, List.foldl_cons, hashOf]

/-! ## The bytes a context holds back (R22, R140) -/

/-- The valid bytes of `BUF`: the bytes of the stream that do not make up a block yet (R22, R23). -/
def Ctx.pending (x : Ctx) : List Byte := x.buf.toList.take x.bufcnt.toNat

theorem Ctx.pending_length {x : Ctx} (hx : x.bufcnt.toNat ≤ 63) :
    x.pending.length = x.bufcnt.toNat := by
  simp [Ctx.pending]
  omega

/-- A byte that leaves the block incomplete is one more byte held back. -/
theorem takeByte_pending_of_lt {x : Ctx} {b : Byte} (hx : x.bufcnt.toNat < 63) :
    (takeByte x b).pending = x.pending ++ [b] := by
  have hcnt : (x.bufcnt + 1).toNat = x.bufcnt.toNat + 1 := by
    rw [BitVec.toNat_add_of_lt (by simp; omega)]
    rfl
  rw [takeByte_lt hx]
  simp only [Ctx.pending, hcnt, take_set]

/-- The block a byte completes is the bytes held back and that byte. -/
theorem completed_block {x : Ctx} {b : Byte} (hx : x.bufcnt.toNat = 63) :
    (x.buf.set 63 b).toList = x.pending ++ [b] := by
  rw [Ctx.pending, hx, ← take_set x.buf 63 b (by omega), List.take_of_length_le (by simp)]

/-- Taking the bytes of a chunk compresses every complete block of the stream of the bytes held back
and the chunk, in order, and holds back the rest (R140, R142, R144). -/
theorem foldl_takeByte_stream (l : List Byte) {x : Ctx} (hx : x.bufcnt.toNat ≤ 63) :
    (l.foldl takeByte x).h = hashOf x.h (x.pending ++ l) ∧
      (l.foldl takeByte x).pending =
        (x.pending ++ l).drop (64 * ((x.bufcnt.toNat + l.length) / 64)) := by
  induction l generalizing x with
  | nil =>
    have hlen := Ctx.pending_length hx
    have hdiv : x.bufcnt.toNat / 64 = 0 := by omega
    simp [hashOf_of_lt x.h (l := x.pending) (by omega), hdiv]
  | cons b l ih =>
    have hcnt := takeByte_bufcnt (b := b) hx
    obtain ⟨ihh, ihp⟩ := ih (x := takeByte x b) (by omega)
    rw [List.foldl_cons, ihh, ihp, hcnt, List.length_cons, List.append_cons]
    rcases Nat.lt_or_eq_of_le hx with hlt | hfull
    · have hh : (takeByte x b).h = x.h := by rw [takeByte_lt hlt]
      rw [hh, takeByte_pending_of_lt hlt]
      refine ⟨rfl, ?_⟩
      congr 2
      omega
    · have hh : (takeByte x b).h = compress x.h (x.buf.set 63 b) := by rw [takeByte_full hfull]
      have hp : (takeByte x b).pending = [] := by rw [takeByte_full hfull]; rfl
      have hdrop : 64 * ((x.bufcnt.toNat + (l.length + 1)) / 64) =
          (x.buf.set 63 b).toList.length + 64 * (((x.bufcnt.toNat + 1) % 64 + l.length) / 64) := by
        rw [Vector.length_toList]
        omega
      rw [hh, hp, ← completed_block hfull, hashOf_block_append, hdrop,
        List.drop_length_add_append, List.nil_append]
      exact ⟨rfl, rfl⟩

/-- UPDATE-body on the stream of the bytes held back and the message bytes (R140 to R144). -/
theorem updateBody_stream (l : List Byte) {x : Ctx} (hx : x.bufcnt.toNat ≤ 63) :
    (updateBody x l).h = hashOf x.h (x.pending ++ l) ∧
      (updateBody x l).pending =
        (x.pending ++ l).drop (64 * ((x.bufcnt.toNat + l.length) / 64)) :=
  foldl_takeByte_stream l (x := { x with bitcnt := _ }) hx

/-- `BITCNT` after UPDATE as a number, where it does not overflow (R143, R145). -/
theorem updateBody_bitcnt_toNat {x : Ctx} {l : List Byte}
    (hl : x.bitcnt.toNat + 8 * l.length < 2 ^ 64) :
    (updateBody x l).bitcnt.toNat = x.bitcnt.toNat + 8 * l.length := by
  rw [updateBody_bitcnt, BitVec.toNat_add, BitVec.toNat_ofNat]
  omega

theorem redrawTail_pending (n : Nat) (x : Ctx) : (redrawTail n x).pending = x.pending := by
  rw [Ctx.pending, redrawTail_bufcnt, redrawTail_take, Ctx.pending]

/-- Two contexts agree in everything but bytes of `BUF` that are not valid (R22). -/
structure Ctx.SameValid (x y : Ctx) : Prop where
  h : x.h = y.h
  bufcnt : x.bufcnt = y.bufcnt
  bitcnt : x.bitcnt = y.bitcnt
  tag : x.tag = y.tag
  phase : x.phase = y.phase
  pending : x.pending = y.pending

theorem Ctx.SameValid.refl (x : Ctx) : x.SameValid x := ⟨rfl, rfl, rfl, rfl, rfl, rfl⟩

theorem redrawTail_sameValid (n : Nat) (x : Ctx) : (redrawTail n x).SameValid x where
  h := redrawTail_h n x
  bufcnt := redrawTail_bufcnt n x
  bitcnt := redrawTail_bitcnt n x
  tag := redrawTail_tag n x
  phase := redrawTail_phase n x
  pending := redrawTail_pending n x

@[simp] theorem updateBody_nil (x : Ctx) : updateBody x [] = x := by
  simp [updateBody]

/-- UPDATE leaves the context it names as UPDATE-body does, of length 0 too (R140, R147). -/
theorem namedCtxAfter_update_sameValid (s : State) (c : CtxIdx) (a0 a1 : Addr) (x : Ctx) :
    (namedCtxAfter s (.update c a0 a1) x).SameValid (updateBody x (s.message a0 a1)) := by
  by_cases h0 : a1 = 0
  · subst h0
    have hnil : s.message a0 0 = [] := List.eq_nil_of_length_eq_zero (s.message_length a0 0)
    rw [namedCtxAfter_update_zero, hnil, updateBody_nil]
    exact .refl x
  · rw [namedCtxAfter_update h0]
    exact redrawTail_sameValid _ _

/-! ## A command whose checks pass -/

/-- On a running core a command whose checks pass has its effect (R202). -/
theorem exec_of_checks {s : State} {i : Instr} (hcode : s.code = 0)
    (hok : ∀ chk ∈ checksOf s i, chk = none) : exec i s = .next (effectOf i s) := by
  rw [exec_eq, attempt_effect (s.not_halted_iff.2 hcode) (firstViolation_eq_none.2 hok)]

/-- The conditions on a message range are the two checks of it (R200). -/
theorem dataOk_iff_checks {p : Params} {a0 a1 : Addr} :
    dataOk p a0 a1 ↔ checkNull a0 a1 = none ∧ checkData p a0 a1 = none := by
  rw [checkNull_eq_none, checkData_eq_none, rangeAdmitted_iff, dataOk, or_and_left]

/-- The named context after the effect (R7). -/
theorem effectOf_ctx? {i : Instr} {c : CtxIdx} (hi : namedCtx i = some c) (s : State) :
    (effectOf i s).ctx? c = (s.ctx? c).map (namedCtxAfter s i) := by
  rw [State.ctx?, effectOf_ctxs, hi, State.ctx?]
  exact List.getElem?_modify_eq _ _ _

/-- The effect leaves every context but the one named (R7). -/
theorem effectOf_sameOtherCtxs {i : Instr} {c : CtxIdx} (hi : namedCtx i = some c) (s : State) :
    sameOtherCtxs c s (effectOf i s) := by
  obtain ⟨hlen, hother⟩ := effectOf_otherCtxs i s
  refine ⟨hlen, fun n hn => hother n ?_⟩
  rw [hi]
  simpa using hn.symm

theorem effectOf_sameControl (i : Instr) (s : State) : sameControl s (effectOf i s) := by
  obtain ⟨hcode, hfcmd, hfarg, hcfg, hhost, -⟩ := effectOf_control i s
  exact ⟨hcfg, hhost, hcode, hfcmd, hfarg⟩

/-- A command without a digest address leaves host memory (R55). -/
theorem effectOf_mem_of_no_digest {i : Instr} (hi : digestAddr i = none) (s : State) :
    (effectOf i s).mem = s.mem := by
  rcases effectOf_mem i s with h | ⟨a2, bytes, ha2, -, -⟩
  · exact h
  · rw [hi] at ha2
    cases ha2

/-- The message of a command is the bytes of host memory in its message range (R53). -/
theorem State.message_eq_hostBytes (s : State) (a0 a1 : Addr) :
    s.message a0 a1 = hostBytes s.mem a0 a1 := by
  rw [State.message, messageAddrs, List.range'_eq_map_range, List.map_map]
  rfl

/-- UPDATE of a Ready context whose length check and message range pass has its effect (R140). -/
theorem exec_update_of_dataOk {s : State} {c : CtxIdx} {a0 a1 : Addr} {x : Ctx}
    (hcode : s.code = 0) (hx : s.ctx? c = some x) (hready : x.phase = .ready)
    (hdata : dataOk s.cfg a0 a1) (hlen : x.bitcnt.toNat + 8 * a1.toNat < 2 ^ 64) :
    exec (.update c a0 a1) s = .next (effectOf (.update c a0 a1) s) := by
  obtain ⟨hnull, hrange⟩ := dataOk_iff_checks.1 hdata
  have hctx : checkContext s c = none := checkContext_eq_none.2 (State.lt_of_ctx? hx)
  have hphase : checkReady s c = none := checkReady_eq_none.2 (by rw [hx, Option.map_some, hready])
  have hlength : checkLength (s.bitsOf c) a1 = none :=
    checkLength_eq_none.2 (by rwa [State.bitsOf_some hx])
  exact exec_of_checks hcode (by simp [checksOf, hctx, hphase, hnull, hrange, hlength])

end Sys2Proof.Machine

open Sys2Proof.Machine Sys2Proof.Claim

/-- Settles O23: the checks pass, the named context is what UPDATE-body makes of the stream, and the
rest is the frame of an effect. -/
theorem updateCompressesTheStream : Obligations.UpdateCompressesTheStream := by
  unfold Obligations.UpdateCompressesTheStream
  intro s c a0 a1 x hcode hx hready hcnt hdata hlen
  rw [← s.message_eq_hostBytes a0 a1]
  have hctx := effectOf_ctx? (i := .update c a0 a1) (c := c) rfl s
  rw [hx, Option.map_some] at hctx
  obtain ⟨hh, hbufcnt, hbitcnt, htag, hphase, hpending⟩ :=
    namedCtxAfter_update_sameValid s c a0 a1 x
  obtain ⟨hhash, hrest⟩ := updateBody_stream (s.message a0 a1) hcnt
  have hcount := updateBody_bufcnt (s.message a0 a1) hcnt
  have hbits : (updateBody x (s.message a0 a1)).bitcnt.toNat = x.bitcnt.toNat + 8 * a1.toNat := by
    rw [updateBody_bitcnt_toNat (by rwa [State.message_length]), State.message_length]
  rw [State.message_length] at hcount hrest
  refine ⟨_, _, exec_update_of_dataOk hcode hx hready hdata hlen, hctx,
    hh.trans hhash, hbufcnt ▸ hcount, hbitcnt ▸ hbits,
    htag.trans (updateBody_tag x _), hphase.trans ((updateBody_phase x _).trans hready),
    hpending.trans hrest,
    effectOf_sameOtherCtxs rfl s, effectOf_sameControl _ s, effectOf_scr s (by simp),
    fun a => by rw [effectOf_mem_of_no_digest rfl]⟩

end

/-! # Proofs: what is visible of a state (spec/10_state.md R22, R25, R28, R35) -/

/-! ## The visible part of a context -/

section

namespace Sys2Proof.Machine

open Sys2Proof.Claim

@[simp] theorem visibleCtx_phase (x : Ctx) : (visibleCtx x).phase = x.phase := by
  unfold visibleCtx
  split <;> rfl

theorem visibleCtx_of_ready {x : Ctx} (hx : x.phase = .ready) :
    visibleCtx x = { x with
      buf := Vector.ofFn fun k => if k.val < x.bufcnt.toNat then x.buf[k] else 0
      tag := 0 } := if_pos hx

theorem visibleCtx_of_not_ready {x : Ctx} (hx : x.phase ≠ .ready) :
    visibleCtx x = { (default : Ctx) with phase := x.phase } := if_neg hx

theorem visibleCtx_h {x : Ctx} (hx : x.phase = .ready) : (visibleCtx x).h = x.h := by
  rw [visibleCtx_of_ready hx]

theorem visibleCtx_bufcnt {x : Ctx} (hx : x.phase = .ready) :
    (visibleCtx x).bufcnt = x.bufcnt := by
  rw [visibleCtx_of_ready hx]

theorem visibleCtx_bitcnt {x : Ctx} (hx : x.phase = .ready) :
    (visibleCtx x).bitcnt = x.bitcnt := by
  rw [visibleCtx_of_ready hx]

theorem visibleCtx_buf {x : Ctx} (hx : x.phase = .ready) {k : Nat} (hk : k < 64)
    (hlt : k < x.bufcnt.toNat) : (visibleCtx x).buf[k] = x.buf[k] := by
  rw [visibleCtx_of_ready hx]
  simp [hlt]

/-- A draw shows its phase alone, if that is not Ready (R28). -/
theorem visibleCtx_drawn (n m : Nat) {p : Phase} (hp : p ≠ .ready) :
    visibleCtx (Ctx.drawn n p) = visibleCtx (Ctx.drawn m p) := by
  rw [visibleCtx_of_not_ready hp, visibleCtx_of_not_ready hp]
  rfl

/-- The bytes of `BUF` that show are the bytes held back (R22). -/
theorem visibleCtx_pending {x : Ctx} (hx : x.phase = .ready) :
    (visibleCtx x).pending = x.pending := by
  rw [visibleCtx_of_ready hx]
  apply List.ext_getElem
  · simp [Ctx.pending]
  · intro k hk _
    simp only [Ctx.pending, List.length_take] at hk
    simp [Ctx.pending]
    omega

/-- What shows of a Ready context is `H`, the two counts and the bytes held back. -/
theorem visibleCtx_congr {x y : Ctx} (hx : x.phase = .ready) (hy : y.phase = .ready)
    (hh : x.h = y.h) (hcnt : x.bufcnt = y.bufcnt) (hbits : x.bitcnt = y.bitcnt)
    (hpend : x.pending = y.pending) : visibleCtx x = visibleCtx y := by
  have hbuf : ∀ k : Fin 64, k.val < x.bufcnt.toNat → x.buf[k] = y.buf[k] := by
    intro k hk
    have := congrArg (·[k.val]?) hpend
    simpa [Ctx.pending, ← hcnt, List.getElem?_take, hk] using this
  rw [visibleCtx_of_ready hx, visibleCtx_of_ready hy, ← hh, ← hcnt, ← hbits, hx, hy]
  congr 2
  funext k
  exact ite_congr rfl (hbuf k) fun _ => rfl

/-- INIT-body shows nothing of the earlier contents (R130, R131). -/
theorem visibleCtx_initBody (w : Word) (x y : Ctx) :
    visibleCtx (initBody w x) = visibleCtx (initBody w y) :=
  visibleCtx_congr rfl rfl rfl rfl rfl rfl

/-- The redraw of the bytes that are not valid does not show (R22). -/
theorem visibleCtx_redrawTail (n : Nat) {x : Ctx} (hx : x.phase = .ready) :
    visibleCtx (redrawTail n x) = visibleCtx x :=
  visibleCtx_congr ((redrawTail_phase n x).trans hx) hx (redrawTail_h n x) (redrawTail_bufcnt n x)
    (redrawTail_bitcnt n x) (redrawTail_pending n x)

/-- UPDATE-body of a Ready context reads nothing that does not show (R140). -/
theorem visibleCtx_updateBody {x : Ctx} (l : List Byte) (hx : x.phase = .ready)
    (hcnt : x.bufcnt.toNat ≤ 63) :
    visibleCtx (updateBody (visibleCtx x) l) = visibleCtx (updateBody x l) := by
  have hcnt' : (visibleCtx x).bufcnt.toNat ≤ 63 := by rwa [visibleCtx_bufcnt hx]
  obtain ⟨hh, hp⟩ := updateBody_stream l hcnt
  obtain ⟨hh', hp'⟩ := updateBody_stream l hcnt'
  have hn := updateBody_bufcnt l hcnt
  have hn' := updateBody_bufcnt l hcnt'
  rw [visibleCtx_pending hx] at hh' hp'
  rw [visibleCtx_h hx] at hh'
  rw [visibleCtx_bufcnt hx] at hp' hn'
  exact visibleCtx_congr (by simp [hx]) (by simp [hx]) (hh'.trans hh.symm)
    (BitVec.eq_of_toNat_eq (hn'.trans hn.symm))
    (by rw [updateBody_bitcnt, updateBody_bitcnt, visibleCtx_bitcnt hx]) (hp'.trans hp.symm)

theorem zeroFill_getElem (buf : Block) (lo hi k : Nat) (hk : k < 64) :
    (zeroFill buf lo hi)[k] = if lo ≤ k ∧ k < hi then 0 else buf[k] := by
  simp [zeroFill]

theorem putFooter_congr {buf buf' : Block} (bits : BitVec 64)
    (h : ∀ k (hk : k < 56), buf[k] = buf'[k]) : putFooter buf bits = putFooter buf' bits := by
  ext k hk : 1
  simp only [putFooter, Vector.getElem_ofFn, Fin.getElem_fin]
  split
  · rfl
  · exact h k (by omega)

/-- The marker, and the bytes below it, are the same on what shows of a Ready context (R151). -/
theorem putMarker_visibleCtx {x : Ctx} (hx : x.phase = .ready) {k : Nat} (hk : k < 64)
    (hle : k ≤ x.bufcnt.toNat) : (putMarker (visibleCtx x))[k] = (putMarker x)[k] := by
  rw [putMarker_getElem, putMarker_getElem, visibleCtx_bufcnt hx]
  split
  · rfl
  · exact visibleCtx_buf hx hk (by omega)

/-- Zero bytes from below the marker, or from the next byte, cover every byte that does not show. -/
theorem zeroFill_putMarker_visibleCtx {x : Ctx} (hx : x.phase = .ready) {lo hi k : Nat}
    (hlo : lo ≤ x.bufcnt.toNat + 1) (hk : k < 64) (hhi : k < hi) :
    (zeroFill (putMarker (visibleCtx x)) lo hi)[k] = (zeroFill (putMarker x) lo hi)[k] := by
  rw [zeroFill_getElem, zeroFill_getElem]
  split
  · rfl
  · exact putMarker_visibleCtx hx hk (by omega)

/-- FINAL-body of a Ready context compresses nothing that does not show: the bytes of `BUF` from
`BUFCNT` on are the padding's (R150 to R153). -/
theorem finalBlocks_visibleCtx {x : Ctx} (hx : x.phase = .ready) :
    finalBlocks (visibleCtx x) = finalBlocks x := by
  have hfooter : ∀ lo, lo ≤ x.bufcnt.toNat + 1 →
      putFooter (zeroFill (putMarker (visibleCtx x)) lo 56) x.bitcnt =
        putFooter (zeroFill (putMarker x) lo 56) x.bitcnt := fun lo hlo =>
    putFooter_congr _ fun k hk => zeroFill_putMarker_visibleCtx hx hlo (by omega) hk
  have hfirst : zeroFill (putMarker (visibleCtx x)) (x.bufcnt.toNat + 1) 64 =
      zeroFill (putMarker x) (x.bufcnt.toNat + 1) 64 := by
    ext k hk : 1
    exact zeroFill_putMarker_visibleCtx hx le_rfl hk hk
  simp only [finalBlocks, visibleCtx_bufcnt hx, visibleCtx_bitcnt hx, hfirst,
    hfooter _ le_rfl, hfooter 0 (by omega)]

/-- FINAL-body's digest of a Ready context depends on what shows of it alone (R154). -/
theorem finalDigest_visibleCtx {x : Ctx} (hx : x.phase = .ready) :
    finalDigest (visibleCtx x) = finalDigest x := by
  rw [finalDigest, finalHash, finalBlocks_visibleCtx hx, visibleCtx_h hx, finalDigest, finalHash]

/-- The bodies of the one-shot commands read nothing of the context they run on (R170, R175). -/
theorem oneShotDigest_congr (s : State) (a0 a1 : Addr) (x y : Ctx) :
    oneShotDigest s x a0 a1 = oneShotDigest s y a0 a1 := by
  have hshown : ∀ y, finalDigest (updateBody (initBody s.cfg.shaMagic y) (s.message a0 a1)) =
      finalDigest (visibleCtx (updateBody (visibleCtx (initBody s.cfg.shaMagic y))
        (s.message a0 a1))) := fun y => by
    rw [visibleCtx_updateBody _ rfl (by simp), finalDigest_visibleCtx (by simp)]
  rw [oneShotDigest, oneShotDigest, hshown, hshown, visibleCtx_initBody _ x y]

/-! ## The visible part of a state -/

variable (s : State)

@[simp] theorem visible_cfg : (visible s).cfg = s.cfg := rfl

@[simp] theorem visible_nctx : (visible s).nctx = s.nctx := by simp [visible, State.nctx]

@[simp] theorem visible_halted : (visible s).halted = s.halted := rfl

@[simp] theorem visible_message (a0 a1 : Addr) :
    (visible s).message a0 a1 = s.message a0 a1 := rfl

@[simp] theorem visible_oneShotDigest (x : Ctx) (a0 a1 : Addr) :
    oneShotDigest (visible s) x a0 a1 = oneShotDigest s x a0 a1 := rfl

theorem visible_ctx? (c : CtxIdx) : (visible s).ctx? c = (s.ctx? c).map visibleCtx := by
  simp [visible, State.ctx?]

@[simp] theorem visible_tick : visible s.tick = visible s := rfl
@[simp] theorem visible_setScr (x : Ctx) : visible (s.setScr x) = visible s := rfl

@[simp] theorem visible_noteReads (a0 a1 : Addr) :
    visible (s.noteReads a0 a1) = (visible s).noteReads a0 a1 := rfl

@[simp] theorem visible_writeOut (a2 : Addr) (v : List Byte) :
    visible (s.writeOut a2 v) = (visible s).writeOut a2 v := rfl

@[simp] theorem visible_raise (k : FaultCode) (w : Word) (v : Addr) :
    visible (s.raise k w v) = (visible s).raise k w v := rfl

@[simp] theorem visible_setCtx (c : CtxIdx) (x : Ctx) :
    visible (s.setCtx c x) = (visible s).setCtx c (visibleCtx x) := by
  simp [visible, State.setCtx, List.map_set]

theorem visibleCtx_visibleCtx (x : Ctx) : visibleCtx (visibleCtx x) = visibleCtx x := by
  by_cases hx : x.phase = .ready
  · exact visibleCtx_congr (by simp [hx]) hx (visibleCtx_h hx) (visibleCtx_bufcnt hx)
      (visibleCtx_bitcnt hx) (visibleCtx_pending hx)
  · have hx' : (visibleCtx x).phase ≠ .ready := by rwa [visibleCtx_phase]
    rw [visibleCtx_of_not_ready hx', visibleCtx_phase, visibleCtx_of_not_ready hx]

@[simp] theorem visible_visible : visible (visible s) = visible s := by
  simp [visible, Function.comp_def, visibleCtx_visibleCtx]

/-! ## A command on the visible part of a state -/

variable {s}

theorem checkContext_visible (c : CtxIdx) : checkContext (visible s) c = checkContext s c := by
  simp [checkContext]

theorem checkReady_visible (c : CtxIdx) : checkReady (visible s) c = checkReady s c := by
  have hphase : ((visible s).ctx? c).map (·.phase) = (s.ctx? c).map (·.phase) := by
    simp [visible_ctx?, Function.comp_def]
  simp only [checkReady, hphase]

/-- The check that reads `BITCNT` counts only where the context has passed as Ready (R28, R202). -/
theorem firstViolation_visible (i : Instr) :
    firstViolation (checksOf (visible s) i) = firstViolation (checksOf s i) := by
  cases i with
  | init c => simp only [checksOf, checkContext_visible]
  | update c a0 a1 =>
    simp only [checksOf, checkContext_visible, checkReady_visible, visible_cfg]
    cases hready : checkReady s c with
    | some v => cases checkContext s c <;> rfl
    | none =>
      obtain ⟨x, hx, hphase⟩ := Option.map_eq_some_iff.1 (checkReady_eq_none.1 hready)
      have hx' : (visible s).ctx? c = some (visibleCtx x) := by
        rw [visible_ctx?, hx, Option.map_some]
      rw [State.bitsOf_some hx', State.bitsOf_some hx, visibleCtx_bitcnt hphase]
  | final c a2 => simp only [checksOf, checkContext_visible, checkReady_visible, visible_cfg]
  | block a0 a1 a2 => rfl
  | blockCtx c a0 a1 a2 => simp only [checksOf, checkContext_visible, visible_cfg]

/-- A context that is Ready where the check of its phase passes (R200). -/
theorem ready_of_checksOf {i : Instr} {c : CtxIdx} (hok : firstViolation (checksOf s i) = none)
    (hi : checkReady s c ∈ checksOf s i) : ∃ x, s.ctx? c = some x ∧ x.phase = .ready :=
  Option.map_eq_some_iff.1 (checkReady_eq_none.1 (firstViolation_eq_none.1 hok _ hi))

/-- A context that exists where the check of its number passes (R72, R200). -/
theorem exists_ctx?_of_checksOf {i : Instr} {c : CtxIdx}
    (hok : firstViolation (checksOf s i) = none) (hi : checkContext s c ∈ checksOf s i) :
    ∃ x, s.ctx? c = some x :=
  State.exists_ctx? (checkContext_eq_none.1 (firstViolation_eq_none.1 hok _ hi))

/-- The effect of a command whose checks pass reads nothing that does not show. -/
theorem effectOf_visible {i : Instr} (hs : countsInRange s)
    (hok : firstViolation (checksOf s i) = none) :
    visible (effectOf i (visible s)) = visible (effectOf i s) := by
  have hctx : ∀ {c x}, s.ctx? c = some x → (visible s).ctx? c = some (visibleCtx x) :=
    fun h => by rw [visible_ctx?, h, Option.map_some]
  cases i with
  | init c =>
    obtain ⟨x, hx⟩ := exists_ctx?_of_checksOf hok (c := c) (by simp [checksOf])
    simp only [effectOf, initEffect_some hx, initEffect_some (hctx hx), visible_setCtx,
      visible_visible, visible_cfg, visibleCtx_initBody _ (visibleCtx x) x]
  | update c a0 a1 =>
    by_cases h0 : a1 = 0
    · subst h0
      simp only [effectOf, updateEffect_zero, visible_visible]
    · obtain ⟨x, hx, hready⟩ := ready_of_checksOf hok (c := c) (by simp [checksOf])
      have hcnt := hs x (List.mem_of_getElem? hx) hready
      simp only [effectOf, updateEffect_some h0 hx, updateEffect_some h0 (hctx hx), visible_tick,
        visible_noteReads, visible_setCtx, visible_visible, visible_message]
      rw [visibleCtx_redrawTail _ (by simpa using hready),
        visibleCtx_redrawTail _ (by simpa using hready), visibleCtx_updateBody _ hready hcnt]
  | final c a2 =>
    obtain ⟨x, hx, hready⟩ := ready_of_checksOf hok (c := c) (by simp [checksOf])
    simp only [effectOf, finalEffect_some hx, finalEffect_some (hctx hx), visible_tick,
      visible_writeOut, visible_setCtx, visible_visible, finalDigest_visibleCtx hready]
    rw [visibleCtx_drawn (visible s).draws s.draws (by decide)]
  | block a0 a1 a2 =>
    simp only [effectOf, blockEffect, visible_tick, visible_writeOut, visible_noteReads,
      visible_setScr, visible_visible, visible_oneShotDigest]
    rw [oneShotDigest_congr s a0 a1 (visible s).scr s.scr]
  | blockCtx c a0 a1 a2 =>
    obtain ⟨x, hx⟩ := exists_ctx?_of_checksOf hok (c := c) (by simp [checksOf])
    simp only [effectOf, blockCtxEffect_some hx, blockCtxEffect_some (hctx hx), visible_tick,
      visible_writeOut, visible_noteReads, visible_setCtx, visible_visible,
      visible_oneShotDigest]
    rw [oneShotDigest_congr s a0 a1 (visibleCtx x) x,
      visibleCtx_drawn (visible s).draws s.draws (by decide)]

/-- A command shows the same from a state as from the visible part of it alone. -/
theorem exec_visible {i : Instr} {t : State} (hs : countsInRange s) (h : exec i s = .next t) :
    ∃ u, exec i (visible s) = .next u ∧ visible u = visible t := by
  refine ⟨_, exec_eq i (visible s), ?_⟩
  rcases exec_inv h with ⟨hh, rfl⟩ | ⟨hh, v, hv, rfl⟩ | ⟨hh, hok, rfl⟩
  · rw [attempt_halted ((visible_halted _).trans hh), visible_visible]
  · rw [attempt_fault ((visible_halted s).trans hh) ((firstViolation_visible i).trans hv),
      visible_raise, visible_raise, visible_visible]
  · rw [attempt_effect ((visible_halted s).trans hh) ((firstViolation_visible i).trans hok),
      effectOf_visible hs hok]

/-- Writing a context twice leaves the second value. -/
theorem State.setCtx_setCtx (c : CtxIdx) (x y : Ctx) :
    (s.setCtx c x).setCtx c y = s.setCtx c y := by
  simp [State.setCtx]

/-- INIT of a context of a running core (R130). -/
theorem exec_init_of_ctx? {c : CtxIdx} {x : Ctx} (hcode : s.code = 0) (hx : s.ctx? c = some x) :
    exec (.init c) s = .next (s.setCtx c (initBody s.cfg.shaMagic x)) := by
  rw [exec_of_checks hcode (by simp [checksOf, checkContext_eq_none, State.lt_of_ctx? hx]),
    effectOf, initEffect_some hx]

end Sys2Proof.Machine

open Sys2Proof.Machine Sys2Proof.Claim

/-- Settles O43: INIT replaces the context, and what INIT-body makes of it shows nothing of what it
was. -/
theorem initForgetsTheEarlierContents : Obligations.InitForgetsTheEarlierContents := by
  unfold Obligations.InitForgetsTheEarlierContents
  intro s t t' c y hcode hc h h'
  obtain ⟨x, hx⟩ := State.exists_ctx? hc
  have hy : (s.setCtx c y).ctx? c = some y := by
    rw [State.setCtx_ctx?, if_pos rfl, if_pos hc]
  rw [exec_init_of_ctx? hcode hx] at h
  rw [exec_init_of_ctx? (s := s.setCtx c y) hcode hy, State.setCtx_setCtx] at h'
  cases h
  cases h'
  rw [visible_setCtx, visible_setCtx, State.setCtx_cfg, visibleCtx_initBody _ x y]

/-- Settles O42: each of the two runs shows what the run on the visible part of its state shows, and
the two visible parts are one. -/
theorem unspecifiedValuesAreNeverObserved : Obligations.UnspecifiedValuesAreNeverObserved := by
  unfold Obligations.UnspecifiedValuesAreNeverObserved
  intro i s s' t t' hs hs' hvis h h'
  obtain ⟨u, hu, hut⟩ := exec_visible hs h
  obtain ⟨u', hu', hut'⟩ := exec_visible hs' h'
  rw [← hvis, hu] at hu'
  cases hu'
  exact hut.symm.trans hut'

end

/-! # Proofs: the checks of the commands in their order (spec/60_exceptions.md R200 to R203) -/

section

namespace Sys2Proof

/-- The command word of a command as a number: its context and its OP (R71, R80). -/
theorem encode_cmd (i : Instr) :
    (encode i).cmd = BitVec.ofNat 32 (256 * Laws.CommandWord.ctx i + Laws.CommandWord.op i) := by
  have hword : ∀ (o : BitVec 4) (c : CtxIdx),
      commandWord o c = BitVec.ofNat 32 (256 * c.toNat + o.toNat) := fun o c => by
    rw [← commandWord_toNat, BitVec.ofNat_toNat, BitVec.setWidth_eq]
  cases i with
  | init c => exact hword 1 c
  | update c a0 a1 => exact hword 2 c
  | final c a2 => exact hword 3 c
  | block a0 a1 a2 => exact hword 4 0
  | blockCtx c a0 a1 a2 => exact hword 5 c

end Sys2Proof

namespace Sys2Proof.Machine

open Sys2Proof.Claim

/-! ## One equation per check: when it fails, and what the fault records (R200) -/

theorem require_eq_ite {A : Prop} [Decidable A] {ok : Bool} (k : FaultCode) (v : Addr)
    (hA : A ↔ ok = false) : require ok k v = if A then some ⟨k, v⟩ else none := by
  cases ok <;> simp [hA]

theorem setWidth_eq_asAddr (c : CtxIdx) : c.setWidth 64 = asAddr c := (BitVec.ofNat_toNat ..).symm

theorem checkContext_eq (s : State) (c : CtxIdx) :
    checkContext s c = if s.nctx ≤ c.toNat then some ⟨.badContext, asAddr c⟩ else none := by
  rw [← setWidth_eq_asAddr]
  exact require_eq_ite _ _ (by simp)

theorem checkReady_eq (s : State) (c : CtxIdx) :
    checkReady s c =
      if (s.ctx? c).map (·.phase) ≠ some .ready then some ⟨.notReady, asAddr c⟩ else none := by
  rw [← setWidth_eq_asAddr]
  exact require_eq_ite _ _ decide_eq_false_iff_not.symm

/-- The data address a NULL_DATA fault records is 0. -/
theorem checkNull_eq (a0 a1 : Addr) :
    checkNull a0 a1 = if a1 ≠ 0 ∧ a0 = 0 then some ⟨.nullData, 0⟩ else none := by
  rw [checkNull, require_eq_ite (A := a1 ≠ 0 ∧ a0 = 0) _ _ (by simp)]
  split
  · next h => rw [h.2]
  · rfl

theorem checkData_eq (p : Params) (a0 a1 : Addr) :
    checkData p a0 a1 =
      if a1 ≠ 0 ∧ ¬ (a0.toNat + a1.toNat ≤ 2 ^ p.aw ∧
          memValid p.memValid a0.toNat a1.toNat .read = true) then some ⟨.dataRange, a0⟩
      else none :=
  require_eq_ite _ _ (by simp [rangeAdmitted])

theorem checkLength_eq {bits total : Nat} {a1 : Addr} (htotal : total = bits + 8 * a1.toNat) :
    checkLength bits a1 = if 2 ^ 64 ≤ total then some ⟨.lengthOverflow, a1⟩ else none :=
  require_eq_ite _ _ (by simp [htotal])

theorem checkDigest_eq (p : Params) (a2 : Addr) :
    checkDigest p a2 =
      if a2 = 0 ∨ 2 ^ p.aw < a2.toNat + 32 ∨ memValid p.memValid a2.toNat 32 .write = false then
        some ⟨.badDigest, a2⟩
      else none :=
  require_eq_ite _ _ (by simp [rangeAdmitted, or_iff_not_imp_left])

theorem State.bitsOf_eq (s : State) (c : CtxIdx) :
    s.bitsOf c = ((s.ctx? c).map (·.bitcnt.toNat)).getD 0 := by
  unfold State.bitsOf
  cases s.ctx? c <;> rfl

/-! ## The checks one after another (R202) -/

/-- The fault a running core takes on the first check that fails (R200, R203). -/
theorem exec_faulted {i : Instr} {s : State} {v : Violation} (hcode : s.code = 0)
    (hv : firstViolation (checksOf s i) = some v) :
    exec i s = .next (faulted s v.code.bits
      (256 * Laws.CommandWord.ctx i + Laws.CommandWord.op i) v.arg) := by
  rw [exec_eq, attempt_fault (s.not_halted_iff.2 hcode) hv, encode_cmd]
  rfl

/-- On a running core a check decides on its fault, or the checks after it decide (R202). -/
theorem exec_if_check {i : Instr} {s : State} {A R : Prop} [Decidable A] {chk : Option Violation}
    {rest : List (Option Violation)} {v : Violation} (hcode : s.code = 0)
    (hchk : chk = if A then some v else none)
    (hcs : firstViolation (checksOf s i) = firstViolation (chk :: rest))
    (hrest : firstViolation (checksOf s i) = firstViolation rest → R) :
    if A then
      exec i s = .next (faulted s v.code.bits
        (256 * Laws.CommandWord.ctx i + Laws.CommandWord.op i) v.arg)
    else R := by
  split
  · next h => exact exec_faulted hcode (by rw [hcs, hchk, if_pos h, firstViolation_some])
  · next h => exact hrest (by rw [hcs, hchk, if_neg h, firstViolation_none])

/-- A command of a running core whose checks pass takes no fault. -/
theorem exec_not_faulted {i : Instr} {s : State} (hcode : s.code = 0)
    (hok : firstViolation (checksOf s i) = none) : ∃ t, exec i s = .next t ∧ t.code = 0 :=
  ⟨_, exec_of_checks hcode (firstViolation_eq_none.1 hok),
    (effectOf_control i s).1.trans hcode⟩

end Sys2Proof.Machine

open Sys2Proof.Machine

/-- Settles O17: the five checks of UPDATE, each by its equation. -/
theorem updateChecksInOrder : Obligations.UpdateChecksInOrder := by
  unfold Obligations.UpdateChecksInOrder
  intro s c a0 a1 hcode
  exact
    exec_if_check hcode (checkContext_eq s c) rfl fun h =>
    exec_if_check hcode (checkReady_eq s c) h fun h =>
    exec_if_check hcode (checkNull_eq a0 a1) h fun h =>
    exec_if_check hcode (checkData_eq s.cfg a0 a1) h fun h =>
    exec_if_check hcode (checkLength_eq (by rw [State.bitsOf_eq s c])) h
      (exec_not_faulted hcode)

/-- Settles O18: the three checks of FINAL, each by its equation. -/
theorem finalChecksInOrder : Obligations.FinalChecksInOrder := by
  unfold Obligations.FinalChecksInOrder
  intro s c a2 hcode
  exact
    exec_if_check hcode (checkContext_eq s c) rfl fun h =>
    exec_if_check hcode (checkReady_eq s c) h fun h =>
    exec_if_check hcode (checkDigest_eq s.cfg a2) h (exec_not_faulted hcode)

/-- Settles O19: the four checks of BLOCK, each by its equation. -/
theorem blockChecksInOrder : Obligations.BlockChecksInOrder := by
  unfold Obligations.BlockChecksInOrder
  intro s a0 a1 a2 hcode
  exact
    exec_if_check hcode (checkNull_eq a0 a1) rfl fun h =>
    exec_if_check hcode (checkData_eq s.cfg a0 a1) h fun h =>
    exec_if_check hcode (checkLength_eq (Nat.zero_add _).symm) h fun h =>
    exec_if_check hcode (checkDigest_eq s.cfg a2) h (exec_not_faulted hcode)

/-- Settles O20: the five checks of BLOCK_CTX, none of them of the phase, each by its equation. -/
theorem blockCtxChecksInOrder : Obligations.BlockCtxChecksInOrder := by
  unfold Obligations.BlockCtxChecksInOrder
  intro s c a0 a1 a2 hcode
  exact
    exec_if_check hcode (checkContext_eq s c) rfl fun h =>
    exec_if_check hcode (checkNull_eq a0 a1) h fun h =>
    exec_if_check hcode (checkData_eq s.cfg a0 a1) h fun h =>
    exec_if_check hcode (checkLength_eq (Nat.zero_add _).symm) h fun h =>
    exec_if_check hcode (checkDigest_eq s.cfg a2) h (exec_not_faulted hcode)

end

/-! # Proofs: the accesses to host memory (spec/20_memory.md R51 to R63) -/

/-! ## Two commands at once (R63) -/

section

open Sys2Proof.Machine

/-- Settles O12: the step takes the event, which has no meaning. -/
theorem concurrentIssueIsRefused : Obligations.ConcurrentIssueIsRefused := by
  unfold Obligations.ConcurrentIssueIsRefused
  intro s r₁ r₂ rest hhost
  rw [step_event hhost]
  rfl

end

/-! ## What is written (R55) -/

section

open Sys2Proof.Machine

/-- Settles O39: by the inversion lemma of `exec`; an effect writes 32 bytes at the digest address or
none. -/
theorem onlyTheDigestRangeIsWritten : Obligations.OnlyTheDigestRangeIsWritten := by
  unfold Obligations.OnlyTheDigestRangeIsWritten
  intro i s t h b hb
  rcases exec_inv h with ⟨-, rfl⟩ | ⟨-, v, -, rfl⟩ | ⟨-, -, rfl⟩
  · rfl
  · rfl
  · rcases effectOf_mem i s with hmem | ⟨a2, bytes, hi, hlen, hmem⟩
    · rw [hmem]
    · rw [hmem, Memory.read_writeBytes_outside _ _ _ _ (hlen ▸ hb a2 hi)]

end

/-! ## FINAL reads no memory (R55, R56, R237) -/

section

namespace Sys2Proof.Machine

open Sys2Proof.Claim

/-- A digest written to canonical memory stands there (R154). -/
theorem holdsBytes_writeBytes {m : Memory} (hm : m.wf) (a : Nat) (bs : List Byte) :
    holdsBytes (m.writeBytes a bs) a bs := by
  intro i hi
  rw [Memory.read_writeBytes_inside hm a i bs hi, List.getD_eq_getElem _ _ hi]

/-- FINAL whose checks pass writes the digest of the context it names. -/
theorem effectOf_final_mem {s : State} {c : CtxIdx} {x : Ctx} (hx : s.ctx? c = some x) (a2 : Addr) :
    (effectOf (.final c a2) s).mem = s.mem.writeBytes a2.toNat (finalDigest x) := by
  rw [effectOf, finalEffect_some hx]
  rfl

end Sys2Proof.Machine

open Sys2Proof.Machine

/-- Settles O30: the checks of FINAL and the digest it writes are the same on any memory. -/
theorem finalReadsNoMemory : Obligations.FinalReadsNoMemory := by
  unfold Obligations.FinalReadsNoMemory
  intro s t t' c a2 m hmem hm hcode h h'
  change exec (.final c a2) (s.setMem m) = .next t' at h'
  cases hv : firstViolation (checksOf s (.final c a2)) with
  | some v =>
    rw [exec_faulted hcode hv] at h
    rw [exec_faulted (s := s.setMem m) (i := .final c a2) hcode hv] at h'
    cases h
    cases h'
    exact ⟨rfl, fun hzero => absurd hzero v.code.bits_ne_zero⟩
  | none =>
    have hok := firstViolation_eq_none.1 hv
    rw [exec_of_checks hcode hok] at h
    rw [exec_of_checks (s := s.setMem m) (i := .final c a2) hcode hok] at h'
    cases h
    cases h'
    obtain ⟨x, hx⟩ := exists_ctx?_of_checksOf hv (c := c) (by simp [checksOf])
    have hx' : (s.setMem m).ctx? c = some x := hx
    refine ⟨(effectOf_control _ s).1.trans (effectOf_control _ (s.setMem m)).1.symm,
      fun _ i hi => ?_⟩
    have hlt : i < (finalDigest x).length := by rwa [finalDigest_length]
    rw [effectOf_final_mem hx, effectOf_final_mem hx', State.setMem_mem,
      holdsBytes_writeBytes hmem _ _ i hlt, holdsBytes_writeBytes hm _ _ i hlt]

end

/-! ## The record of the accesses (R55, R56) -/

section

namespace Sys2Proof.Machine

open Sys2Proof.Claim

/-- The reads of a message range, one by one (R55). -/
theorem busReads_eq (a0 a1 : Addr) :
    busReads a0 a1 = (List.range a1.toNat).map fun k => .read (a0.toNat + k) := by
  rw [busReads, messageAddrs, List.range'_eq_map_range, List.map_map]
  rfl

/-- The writes of a list of bytes, one by one (R55). -/
theorem busWrites_eq (a : Nat) (ws : List Byte) :
    busWrites a ws = (List.range ws.length).map fun k => .write (a + k) (ws.getD k 0) := by
  induction ws generalizing a with
  | nil => rfl
  | cons w ws ih =>
    rw [busWrites, ih, List.length_cons, List.range_succ_eq_map, List.map_cons, List.map_map]
    simp [Function.comp_def, Nat.add_assoc, Nat.add_comm 1]

/-- The reads of the message range of a command (R53, R55). -/
def readsOf (i : Instr) : List BusAccess :=
  (messageRange i).elim [] fun r => busReads r.1 r.2

/-- The writes of a command that writes these bytes at its digest address (R55). -/
def writesOf (i : Instr) (ws : List Byte) : List BusAccess :=
  (digestAddr i).elim [] fun a2 => busWrites a2.toNat ws

/-- As many bytes as a command writes: 32 for a digest (R154). -/
def isDigestOf (i : Instr) (ws : List Byte) : Prop :=
  ws.length = if (digestAddr i).isSome then 32 else 0

/-- A command whose checks pass makes its reads, and then its writes (R55, R56). -/
theorem effectOf_bus {i : Instr} {s : State} (hok : firstViolation (checksOf s i) = none) :
    ∃ ws, isDigestOf i ws ∧ (effectOf i s).bus = s.bus ++ readsOf i ++ writesOf i ws := by
  cases i with
  | init c =>
    obtain ⟨x, hx⟩ := exists_ctx?_of_checksOf hok (c := c) (by simp [checksOf])
    refine ⟨[], rfl, ?_⟩
    simp [effectOf, initEffect_some hx, readsOf, writesOf, messageRange, digestAddr]
  | update c a0 a1 =>
    refine ⟨[], rfl, ?_⟩
    by_cases h0 : a1 = 0
    · subst h0
      rw [effectOf, updateEffect_zero]
      simp [readsOf, writesOf, messageRange, digestAddr, busReads_eq]
    · obtain ⟨x, hx⟩ := exists_ctx?_of_checksOf hok (c := c) (by simp [checksOf])
      simp [effectOf, updateEffect_some h0 hx, readsOf, writesOf, messageRange, digestAddr]
  | final c a2 =>
    obtain ⟨x, hx⟩ := exists_ctx?_of_checksOf hok (c := c) (by simp [checksOf])
    refine ⟨finalDigest x, finalDigest_length x, ?_⟩
    simp [effectOf, finalEffect_some hx, readsOf, writesOf, messageRange, digestAddr]
  | block a0 a1 a2 =>
    exact ⟨oneShotDigest s s.scr a0 a1, oneShotDigest_length _ _ _ _, rfl⟩
  | blockCtx c a0 a1 a2 =>
    obtain ⟨x, hx⟩ := exists_ctx?_of_checksOf hok (c := c) (by simp [checksOf])
    refine ⟨oneShotDigest s x a0 a1, oneShotDigest_length _ _ _ _, ?_⟩
    simp [effectOf, blockCtxEffect_some hx, readsOf, writesOf, messageRange, digestAddr]

/-! ## Where the accesses may be (R51, R59) -/

/-- An access of this kind at `a` lies in an admitted range below `2^AW` (R51, R59). -/
def accessAdmitted (p : Params) (k : AccessKind) (a : Nat) : Prop :=
  ∃ b n, b ≤ a ∧ a < b + n ∧ b + n ≤ 2 ^ p.aw ∧ memValid p.memValid b n k = true

theorem accessAdmitted_of_range {p : Params} {a : Addr} {n k : Nat} {kind : AccessKind}
    (h : rangeAdmitted p a n kind = true) (hk : k < n) : accessAdmitted p kind (a.toNat + k) := by
  obtain ⟨htop, hvalid⟩ := rangeAdmitted_iff.1 h
  exact ⟨a.toNat, n, by omega, by omega, htop, hvalid⟩

/-- The message range of a command whose checks pass is empty or admitted for reads. -/
theorem messageRange_admitted {s : State} {i : Instr} {a0 a1 : Addr}
    (hi : messageRange i = some (a0, a1)) (hok : firstViolation (checksOf s i) = none) :
    a1 = 0 ∨ rangeAdmitted s.cfg a0 a1.toNat .read = true := by
  have hmem : checkData s.cfg a0 a1 ∈ checksOf s i := by
    cases i <;> simp_all [messageRange, checksOf]
  exact checkData_eq_none.1 (firstViolation_eq_none.1 hok _ hmem)

/-- The digest range of a command whose checks pass is admitted for writes. -/
theorem digestAddr_admitted {s : State} {i : Instr} {a2 : Addr} (hi : digestAddr i = some a2)
    (hok : firstViolation (checksOf s i) = none) : rangeAdmitted s.cfg a2 32 .write = true := by
  have hmem : checkDigest s.cfg a2 ∈ checksOf s i := by
    cases i <;> simp_all [digestAddr, checksOf]
  exact (checkDigest_eq_none.1 (firstViolation_eq_none.1 hok _ hmem)).2

/-- Every read of a command whose checks pass is admitted. -/
theorem readsOf_admitted {s : State} {i : Instr} (hok : firstViolation (checksOf s i) = none)
    {e : BusAccess} (he : e ∈ readsOf i) : ∃ a, e = .read a ∧ accessAdmitted s.cfg .read a := by
  cases hi : messageRange i with
  | none => simp [readsOf, hi] at he
  | some r =>
    obtain ⟨k, hk, rfl⟩ : ∃ k < r.2.toNat, BusAccess.read (r.1.toNat + k) = e := by
      simpa [readsOf, hi, busReads_eq] using he
    refine ⟨_, rfl, ?_⟩
    rcases messageRange_admitted hi hok with h0 | hrange
    · rw [h0] at hk
      exact absurd hk (Nat.not_lt_zero k)
    · exact accessAdmitted_of_range hrange hk

/-- Every write of a command whose checks pass is admitted. -/
theorem writesOf_admitted {s : State} {i : Instr} (hok : firstViolation (checksOf s i) = none)
    {ws : List Byte} (hws : isDigestOf i ws) {e : BusAccess} (he : e ∈ writesOf i ws) :
    ∃ a v, e = .write a v ∧ accessAdmitted s.cfg .write a := by
  cases hi : digestAddr i with
  | none => simp [writesOf, hi] at he
  | some a2 =>
    have hlen : ws.length = 32 := by simpa [isDigestOf, hi] using hws
    obtain ⟨k, hk, rfl⟩ : ∃ k < 32, BusAccess.write (a2.toNat + k) (ws.getD k 0) = e := by
      simpa [writesOf, hi, busWrites_eq, hlen] using he
    exact ⟨_, _, rfl, accessAdmitted_of_range (digestAddr_admitted hi hok) hk⟩

end Sys2Proof.Machine

open Sys2Proof.Machine Sys2Proof.Claim

/-- Settles O40: a fault leaves the record, and an effect makes the reads and then the writes. -/
theorem accessesAreOnceInOrderReadsFirst : Obligations.AccessesAreOnceInOrderReadsFirst := by
  unfold Obligations.AccessesAreOnceInOrderReadsFirst
  intro i s t hcode h
  rcases exec_inv h with ⟨hh, -⟩ | ⟨-, v, -, rfl⟩ | ⟨-, hok, rfl⟩
  · exact absurd hcode (s.halted_iff.1 hh)
  · have hne : (s.raise v.code (Sys2Proof.encode i).cmd v.arg).code ≠ 0 := v.code.bits_ne_zero
    rw [if_neg hne]
    rfl
  · obtain ⟨ws, hws, hbus⟩ := effectOf_bus hok
    rw [if_pos ((effectOf_control i s).1.trans hcode)]
    refine ⟨ws, hws, hbus.trans ?_⟩
    congr 2
    · rw [readsOf]
      cases messageRange i with
      | none => rfl
      | some r => exact busReads_eq r.1 r.2
    · rw [writesOf]
      cases hi : digestAddr i with
      | none => rfl
      | some a2 =>
        have hlen : ws.length = 32 := by simpa [isDigestOf, hi] using hws
        rw [← hlen]
        exact busWrites_eq a2.toNat ws

/-- Settles O41: the halt and a fault access nothing, and every read and write of an effect is
admitted. -/
theorem accessesAreAdmitted : Obligations.AccessesAreAdmitted := by
  unfold Obligations.AccessesAreAdmitted
  intro i s t h
  rcases exec_inv h with ⟨-, rfl⟩ | ⟨-, v, -, rfl⟩ | ⟨-, hok, rfl⟩
  · exact ⟨[], by simp⟩
  · exact ⟨[], by simp⟩
  · obtain ⟨ws, hws, hbus⟩ := effectOf_bus hok
    refine ⟨readsOf i ++ writesOf i ws, by rw [hbus, List.append_assoc], fun a ha => ?_,
      fun a v ha => ?_⟩
    · rcases List.mem_append.1 ha with ha | ha
      · obtain ⟨_, heq, hadm⟩ := readsOf_admitted hok ha
        cases heq
        exact hadm
      · obtain ⟨_, _, heq, -⟩ := writesOf_admitted hok hws ha
        cases heq
    · rcases List.mem_append.1 ha with ha | ha
      · obtain ⟨_, heq, -⟩ := readsOf_admitted hok ha
        cases heq
      · obtain ⟨_, _, heq, hadm⟩ := writesOf_admitted hok hws ha
        cases heq
        exact hadm

end

/-! # Proofs: the digest of a message (spec/42_driver.md R148 to R154, spec/43_oneshot.md) -/

/-! ## The padded stream of FINAL (R150 to R153) -/

section

namespace Sys2Proof.Machine

open Sys2Proof.Claim

theorem putFooter_getElem (buf : Block) (bits : BitVec 64) (k : Nat) (hk : k < 64) :
    (putFooter buf bits)[k] =
      if 56 ≤ k then (be64Bytes bits).getD (k - 56) 0 else buf[k] := by
  simp [putFooter]

theorem padding_length (n : Nat) (bits : BitVec 64) :
    (padding n bits).length = (119 - n % 64) % 64 + 9 := by
  simp [padding]

/-- The stream FINAL compresses: the bytes held back and the padding footer (R151 to R153). -/
def Ctx.padded (x : Ctx) : List Byte := x.pending ++ padding x.bufcnt.toNat x.bitcnt

theorem Ctx.padded_length {x : Ctx} (hx : x.bufcnt.toNat ≤ 63) :
    x.padded.length = if 56 ≤ x.bufcnt.toNat then 128 else 64 := by
  rw [Ctx.padded, List.length_append, Ctx.pending_length hx, padding_length]
  split <;> omega

/-- `BUF` up to the marker is the bytes held back and the marker (R151). -/
theorem putMarker_take {x : Ctx} (hx : x.bufcnt.toNat ≤ 63) :
    (putMarker x).toList.take (x.bufcnt.toNat + 1) = x.pending ++ [0x80] := by
  have hset : putMarker x = x.buf.set x.bufcnt.toNat 0x80 (by omega) := by
    ext k hk
    rw [putMarker_getElem, Vector.getElem_set]
    simp only [eq_comm]
  rw [hset, take_set, Ctx.pending]

/-- The padded stream byte by byte: `BUF` up to the marker, zero bytes, and the length in the last
eight. -/
theorem Ctx.padded_getD {x : Ctx} (hx : x.bufcnt.toNat ≤ 63) (k : Nat) :
    x.padded.getD k 0 =
      if k ≤ x.bufcnt.toNat then (putMarker x).toList.getD k 0
      else if k < x.padded.length - 8 then 0
      else (be64Bytes x.bitcnt).getD (k - (x.padded.length - 8)) 0 := by
  have hparts : x.padded = (putMarker x).toList.take (x.bufcnt.toNat + 1) ++
      (List.replicate ((119 - x.bufcnt.toNat % 64) % 64) 0 ++ be64Bytes x.bitcnt) := by
    rw [putMarker_take hx, List.append_assoc]
    rfl
  have hmarked : ((putMarker x).toList.take (x.bufcnt.toNat + 1)).length = x.bufcnt.toNat + 1 := by
    rw [putMarker_take hx, List.length_append, Ctx.pending_length hx, List.length_singleton]
  have hlen : x.padded.length - 8 =
      x.bufcnt.toNat + 1 + (119 - x.bufcnt.toNat % 64) % 64 := by
    rw [Ctx.padded, List.length_append, Ctx.pending_length hx, padding_length]
    omega
  rw [hlen, hparts]
  split
  · next h =>
    rw [List.getD_append _ _ _ _ (by omega), List.getD_eq_getElem?_getD,
      List.getElem?_take_of_lt (by omega), List.getD_eq_getElem?_getD]
  · next h =>
    rw [List.getD_append_right _ _ _ _ (by omega), hmarked]
    split
    · next hz => rw [List.getD_append _ _ _ _ (by simp; omega), List.getD_replicate _ (by omega)]
    · next hz =>
      rw [List.getD_append_right _ _ _ _ (by simp; omega), List.length_replicate, Nat.sub_sub]

/-- The blocks FINAL compresses are those of the padded stream: byte by byte, the three parts of the
stream are what the marker, the zero bytes and the footer leave in `BUF`. -/
theorem finalBlocks_eq_blocksOf {x : Ctx} (hx : x.bufcnt.toNat ≤ 63) :
    finalBlocks x = blocksOf x.padded := by
  have hlen := Ctx.padded_length hx
  have hmarker : ∀ k (hk : k < 64), (putMarker x).toList.getD k 0 = (putMarker x)[k] :=
    fun k hk => by simp [hk]
  unfold finalBlocks
  split
  · next h =>
    rw [if_pos h] at hlen
    have hfirst : zeroFill (putMarker x) (x.bufcnt.toNat + 1) 64 =
        Vector.ofFn fun k => x.padded.getD (64 * 0 + k.val) 0 := by
      ext k hk : 1
      rw [zeroFill_getElem, Vector.getElem_ofFn, Ctx.padded_getD hx, hlen]
      grind
    have hsecond : putFooter (zeroFill (putMarker x) 0 56) x.bitcnt =
        Vector.ofFn fun k => x.padded.getD (64 * 1 + k.val) 0 := by
      ext k hk : 1
      rw [putFooter_getElem, zeroFill_getElem, Vector.getElem_ofFn, Ctx.padded_getD hx, hlen]
      grind
    rw [hfirst, hsecond, blocksOf, hlen]
    rfl
  · next h =>
    rw [if_neg h] at hlen
    have hblock : putFooter (zeroFill (putMarker x) (x.bufcnt.toNat + 1) 56) x.bitcnt =
        Vector.ofFn fun k => x.padded.getD (64 * 0 + k.val) 0 := by
      ext k hk : 1
      rw [putFooter_getElem, zeroFill_getElem, Vector.getElem_ofFn, Ctx.padded_getD hx, hlen]
      grind
    rw [hblock, blocksOf, hlen]
    rfl

/-- FINAL-body's `H` is that of the padded stream (R150 to R153). -/
theorem finalHash_eq_hashOf {x : Ctx} (hx : x.bufcnt.toNat ≤ 63) :
    finalHash x = hashOf x.h x.padded := by
  rw [finalHash, finalBlocks_eq_blocksOf hx, hashOf]

/-! ## A stream in two parts (R144) -/

theorem exists_block_append {l : List Byte} (hl : 64 ≤ l.length) :
    ∃ (blk : Block) (r : List Byte), l = blk.toList ++ r :=
  ⟨⟨(l.take 64).toArray, by simpa using hl⟩, l.drop 64, by simp⟩

/-- Compressing a stream and then more of it: what the first part leaves over its complete blocks
goes in front of the second. -/
theorem hashOf_append (h : HashWords) (l r : List Byte) :
    hashOf h (l ++ r) = hashOf (hashOf h l) (l.drop (64 * (l.length / 64)) ++ r) := by
  induction hn : l.length / 64 generalizing h l with
  | zero => rw [hashOf_of_lt h (l := l) (by omega), Nat.mul_zero, List.drop_zero]
  | succ n ih =>
    obtain ⟨blk, l', rfl⟩ := exists_block_append (l := l) (by omega)
    have hblk : blk.toList.length = 64 := blk.length_toList
    rw [List.length_append, hblk] at hn
    have hdrop : 64 * (n + 1) = blk.toList.length + 64 * n := by omega
    rw [List.append_assoc, hashOf_block_append, hashOf_block_append, hdrop,
      List.drop_length_add_append, ih _ _ (by omega)]

/-! ## A context that has taken a message (R140 to R144) -/

/-- The context holds what INIT-body and UPDATE-bodies leave after the message bytes `m`. -/
structure Ctx.Absorbed (x : Ctx) (m : List Byte) : Prop where
  phase : x.phase = .ready
  h : x.h = hashOf initialHash m
  bufcnt : x.bufcnt.toNat = m.length % 64
  bitcnt : x.bitcnt.toNat = 8 * m.length
  pending : x.pending = m.drop (64 * (m.length / 64))

theorem Ctx.Absorbed.bufcnt_le {x : Ctx} {m : List Byte} (hx : x.Absorbed m) :
    x.bufcnt.toNat ≤ 63 := by
  have := hx.bufcnt
  omega

theorem Ctx.SameValid.absorbed {x y : Ctx} {m : List Byte} (hxy : x.SameValid y)
    (hy : y.Absorbed m) : x.Absorbed m where
  phase := hxy.phase.trans hy.phase
  h := hxy.h.trans hy.h
  bufcnt := hxy.bufcnt ▸ hy.bufcnt
  bitcnt := hxy.bitcnt ▸ hy.bitcnt
  pending := hxy.pending.trans hy.pending

/-- INIT-body starts with the empty message (R130). -/
theorem initBody_absorbed (w : Word) (x : Ctx) : (initBody w x).Absorbed [] where
  phase := rfl
  h := rfl
  bufcnt := rfl
  bitcnt := rfl
  pending := rfl

/-- UPDATE-body appends its bytes to the message (R140 to R144). -/
theorem updateBody_absorbed {x : Ctx} {m l : List Byte} (hx : x.Absorbed m)
    (hlen : 8 * (m.length + l.length) < 2 ^ 64) : (updateBody x l).Absorbed (m ++ l) := by
  obtain ⟨hphase, hh, hbufcnt, hbitcnt, hpending⟩ := hx
  obtain ⟨hhash, hrest⟩ := updateBody_stream l (x := x) (by omega)
  have hdrop : (m ++ l).drop (64 * (m.length / 64)) = x.pending ++ l := by
    rw [hpending, List.drop_append_of_le_length (by omega)]
  exact {
    phase := (updateBody_phase x l).trans hphase
    h := by rw [hhash, hh, hpending, ← hashOf_append]
    bufcnt := by rw [updateBody_bufcnt l (by omega), hbufcnt, List.length_append]; omega
    bitcnt := by rw [updateBody_bitcnt_toNat (by omega), hbitcnt, List.length_append]; omega
    pending := by
      rw [hrest, ← hdrop, List.drop_drop, List.length_append, hbufcnt]
      congr 1
      omega }

/-- FINAL-body of a context that has taken a message gives its digest (R150 to R154). -/
theorem Ctx.Absorbed.finalDigest_eq {x : Ctx} {m : List Byte} (hx : x.Absorbed m) :
    finalDigest x = sha256 m := by
  have hpadding : padding x.bufcnt.toNat x.bitcnt =
      padding m.length (BitVec.ofNat 64 (8 * m.length)) := by
    rw [← hx.bitcnt, BitVec.ofNat_toNat, BitVec.setWidth_eq, hx.bufcnt, padding, padding,
      Nat.mod_mod]
  rw [finalDigest, finalHash_eq_hashOf hx.bufcnt_le, Ctx.padded, hpadding, hx.h, hx.pending,
    ← hashOf_append, sha256]

theorem hostBytes_length (m : Memory) (a0 a1 : Addr) : (hostBytes m a0 a1).length = a1.toNat := by
  simp [hostBytes]

/-- The bodies of a one-shot command give the digest of its message, whatever context they run on
(R170, R175). -/
theorem oneShotDigest_eq_sha256 (s : State) (x : Ctx) {a0 a1 : Addr} (hlen : 8 * a1.toNat < 2 ^ 64) :
    oneShotDigest s x a0 a1 = sha256 (hostBytes s.mem a0 a1) := by
  rw [oneShotDigest, s.message_eq_hostBytes]
  refine (updateBody_absorbed (initBody_absorbed _ x) ?_).finalDigest_eq
  rwa [List.length_nil, Nat.zero_add, hostBytes_length]

end Sys2Proof.Machine

end

/-! ## The commands that write a digest -/

section

namespace Sys2Proof.Machine

open Sys2Proof.Claim

/-- Writing a digest leaves every byte outside its range (R55). -/
theorem sameOutside_writeBytes (m : Memory) (a : Nat) {bs : List Byte} (hlen : bs.length = 32) :
    sameOutside m (m.writeBytes a bs) a :=
  fun b hb => Memory.read_writeBytes_outside m a b bs (hlen ▸ hb)

theorem sha256_length (m : List Byte) : (sha256 m).length = 32 := digestBytes_length _

/-- The conditions on a digest range are the check of it (R200). -/
theorem digestOk_iff_check {p : Params} {a2 : Addr} : digestOk p a2 ↔ checkDigest p a2 = none := by
  rw [checkDigest_eq_none, rangeAdmitted_iff, digestOk]

/-- FINAL of a Ready context at a digest range that passes has its effect (R150). -/
theorem exec_final_of_digestOk {s : State} {c : CtxIdx} {a2 : Addr} {x : Ctx} (hcode : s.code = 0)
    (hx : s.ctx? c = some x) (hready : x.phase = .ready) (hdigest : digestOk s.cfg a2) :
    exec (.final c a2) s = .next (effectOf (.final c a2) s) := by
  have hctx : checkContext s c = none := checkContext_eq_none.2 (State.lt_of_ctx? hx)
  have hphase : checkReady s c = none := checkReady_eq_none.2 (by rw [hx, Option.map_some, hready])
  exact exec_of_checks hcode (by simp [checksOf, hctx, hphase, digestOk_iff_check.1 hdigest])

/-- BLOCK whose message and digest ranges pass has its effect (R170). -/
theorem exec_block_of_ok {s : State} {a0 a1 a2 : Addr} (hcode : s.code = 0)
    (hdata : dataOk s.cfg a0 a1) (hlen : 8 * a1.toNat < 2 ^ 64) (hdigest : digestOk s.cfg a2) :
    exec (.block a0 a1 a2) s = .next (effectOf (.block a0 a1 a2) s) := by
  obtain ⟨hnull, hrange⟩ := dataOk_iff_checks.1 hdata
  have hlength : checkLength 0 a1 = none := checkLength_eq_none.2 (by rwa [Nat.zero_add])
  exact exec_of_checks hcode
    (by simp [checksOf, hnull, hrange, hlength, digestOk_iff_check.1 hdigest])

/-- BLOCK_CTX of a context of the machine, in any phase, whose ranges pass has its effect (R175). -/
theorem exec_blockCtx_of_ok {s : State} {c : CtxIdx} {a0 a1 a2 : Addr} (hcode : s.code = 0)
    (hc : c.toNat < s.nctx) (hdata : dataOk s.cfg a0 a1) (hlen : 8 * a1.toNat < 2 ^ 64)
    (hdigest : digestOk s.cfg a2) :
    exec (.blockCtx c a0 a1 a2) s = .next (effectOf (.blockCtx c a0 a1 a2) s) := by
  obtain ⟨hnull, hrange⟩ := dataOk_iff_checks.1 hdata
  have hlength : checkLength 0 a1 = none := checkLength_eq_none.2 (by rwa [Nat.zero_add])
  exact exec_of_checks hcode (by simp [checksOf, checkContext_eq_none.2 hc, hnull, hrange, hlength,
    digestOk_iff_check.1 hdigest])

theorem effectOf_block_mem (s : State) {a0 a1 : Addr} (hlen : 8 * a1.toNat < 2 ^ 64) (a2 : Addr) :
    (effectOf (.block a0 a1 a2) s).mem =
      s.mem.writeBytes a2.toNat (sha256 (hostBytes s.mem a0 a1)) := by
  rw [← oneShotDigest_eq_sha256 s s.scr hlen]
  rfl

theorem effectOf_blockCtx_mem {s : State} {c : CtxIdx} {x : Ctx} (hx : s.ctx? c = some x)
    {a0 a1 : Addr} (hlen : 8 * a1.toNat < 2 ^ 64) (a2 : Addr) :
    (effectOf (.blockCtx c a0 a1 a2) s).mem =
      s.mem.writeBytes a2.toNat (sha256 (hostBytes s.mem a0 a1)) := by
  rw [← oneShotDigest_eq_sha256 s x hlen, effectOf, blockCtxEffect_some hx]
  rfl

end Sys2Proof.Machine

open Sys2Proof.Machine Sys2Proof.Claim

/-- Settles O32: the checks pass, the bodies on `SCR` give the digest, and the rest is the frame of
an effect. -/
theorem blockWritesTheDigest : Obligations.BlockWritesTheDigest := by
  unfold Obligations.BlockWritesTheDigest
  intro s a0 a1 a2 hcode hmem hdata hlen hdigest
  have hwritten := effectOf_block_mem s (a0 := a0) hlen a2
  exact ⟨_, exec_block_of_ok hcode hdata hlen hdigest,
    hwritten ▸ holdsBytes_writeBytes hmem _ _,
    hwritten ▸ sameOutside_writeBytes _ _ (sha256_length _),
    effectOf_ctxs _ s, effectOf_sameControl _ s⟩

/-- Settles O33: the checks pass, the bodies on the named context give the digest, and the rest is the
frame of an effect. -/
theorem blockCtxWritesTheDigest : Obligations.BlockCtxWritesTheDigest := by
  unfold Obligations.BlockCtxWritesTheDigest
  intro s c a0 a1 a2 hcode hmem hc hdata hlen hdigest
  obtain ⟨x, hx⟩ := State.exists_ctx? hc
  have hctx := effectOf_ctx? (i := .blockCtx c a0 a1 a2) (c := c) rfl s
  rw [hx, Option.map_some] at hctx
  have hwritten := effectOf_blockCtx_mem hx (a0 := a0) hlen a2
  exact ⟨_, _, exec_blockCtx_of_ok hcode hc hdata hlen hdigest, hctx, Ctx.drawn_phase _ _,
    hwritten ▸ holdsBytes_writeBytes hmem _ _,
    hwritten ▸ sameOutside_writeBytes _ _ (sha256_length _),
    effectOf_sameOtherCtxs rfl s, effectOf_sameControl _ s, effectOf_scr s (by simp)⟩

end

/-! ## INIT, UPDATEs and FINAL (R131, R148, R150) -/

section

namespace Sys2Proof.Machine

open Sys2Proof.Claim

theorem runAll_cons {i : Instr} {s t : State} (h : exec i s = .next t) (is : List Instr) :
    runAll (i :: is) s = runAll is t := by
  rw [runAll, h]

/-- A running core with the memory and the parameters of `s`, whose context `c` has taken the message
`m`. -/
structure State.Streaming (s t : State) (c : CtxIdx) (m : List Byte) : Prop where
  cfg : t.cfg = s.cfg
  mem : t.mem = s.mem
  code : t.code = 0
  ctx : ∃ x, t.ctx? c = some x ∧ x.Absorbed m

/-- INIT starts a message (R130). -/
theorem exec_init_streaming {s : State} {c : CtxIdx} (hcode : s.code = 0) (hc : c.toNat < s.nctx) :
    ∃ t, exec (.init c) s = .next t ∧ s.Streaming t c [] := by
  obtain ⟨x, hx⟩ := State.exists_ctx? hc
  have hctx : (s.setCtx c (initBody s.cfg.shaMagic x)).ctx? c =
      some (initBody s.cfg.shaMagic x) := by
    rw [State.setCtx_ctx?, if_pos rfl, if_pos hc]
  exact ⟨_, exec_init_of_ctx? hcode hx, rfl, rfl, hcode, _, hctx, initBody_absorbed _ x⟩

/-- UPDATE appends its chunk to the message (R140). -/
theorem exec_update_streaming {s t : State} {c : CtxIdx} {m : List Byte} {a0 a1 : Addr}
    (ht : s.Streaming t c m) (hdata : dataOk s.cfg a0 a1)
    (hlen : 8 * (m.length + a1.toNat) < 2 ^ 64) :
    ∃ u, exec (.update c a0 a1) t = .next u ∧ s.Streaming u c (m ++ hostBytes s.mem a0 a1) := by
  obtain ⟨hcfg, hmem, hcode, x, hx, habs⟩ := ht
  have hbits := habs.bitcnt
  have hctx := effectOf_ctx? (i := .update c a0 a1) (c := c) rfl t
  rw [hx, Option.map_some] at hctx
  obtain ⟨hcfg', -, hcode', -, -⟩ := effectOf_sameControl (.update c a0 a1) t
  refine ⟨_, exec_update_of_dataOk hcode hx habs.phase (hcfg ▸ hdata) (by omega),
    hcfg'.trans hcfg, (effectOf_mem_of_no_digest rfl t).trans hmem, hcode'.trans hcode, _, hctx,
    (namedCtxAfter_update_sameValid t c a0 a1 x).absorbed ?_⟩
  rw [t.message_eq_hostBytes, hmem]
  exact updateBody_absorbed habs (by rwa [hostBytes_length])

/-- UPDATEs append their chunks to the message, and further commands run from there (R148). -/
theorem runAll_updates_streaming {s : State} {c : CtxIdx} {chunks : List (Addr × Addr)}
    (hdata : ∀ p ∈ chunks, dataOk s.cfg p.1 p.2) {t : State} {m : List Byte}
    (ht : s.Streaming t c m)
    (hlen : 8 * (m.length + (chunks.map fun p => p.2.toNat).sum) < 2 ^ 64) (is : List Instr) :
    ∃ u, s.Streaming u c (m ++ chunks.flatMap fun p => hostBytes s.mem p.1 p.2) ∧
      runAll (chunks.map (fun p => .update c p.1 p.2) ++ is) t = runAll is u := by
  induction chunks generalizing t m with
  | nil => exact ⟨t, by simpa using ht, rfl⟩
  | cons p chunks ih =>
    obtain ⟨hp, hrest⟩ := List.forall_mem_cons.1 hdata
    rw [List.map_cons, List.sum_cons] at hlen
    obtain ⟨t', hexec, ht'⟩ := exec_update_streaming ht hp (by omega)
    obtain ⟨u, hu, hrun⟩ := ih hrest ht'
      (by rw [List.length_append, hostBytes_length]; omega)
    rw [List.append_assoc] at hu
    exact ⟨u, hu, (runAll_cons hexec _).trans hrun⟩

end Sys2Proof.Machine

open Sys2Proof.Machine Sys2Proof.Claim

/-- Settles O34: INIT starts a message, each UPDATE appends its chunk, and FINAL writes the digest of
the message taken. -/
theorem streamingComputesSha256 : Obligations.StreamingComputesSha256 := by
  unfold Obligations.StreamingComputesSha256
  intro s c chunks a2 hcode hmem hc hdata hlen hdigest
  obtain ⟨t, hinit, ht⟩ := exec_init_streaming hcode hc
  obtain ⟨u, ⟨hcfg, humem, hucode, x, hx, habs⟩, hrun⟩ :=
    runAll_updates_streaming hdata ht (by simpa using hlen) [.final c a2]
  rw [List.nil_append] at habs
  have hfinal := exec_final_of_digestOk (a2 := a2) hucode hx habs.phase (hcfg ▸ hdigest)
  have hctx := effectOf_ctx? (i := .final c a2) (c := c) rfl u
  rw [hx, Option.map_some] at hctx
  have hwritten := effectOf_final_mem hx a2
  rw [habs.finalDigest_eq, humem] at hwritten
  refine ⟨effectOf (.final c a2) u, ?_, (effectOf_control _ u).1.trans hucode, ?_,
    hwritten ▸ holdsBytes_writeBytes hmem _ _,
    hwritten ▸ sameOutside_writeBytes _ _ (sha256_length _)⟩
  · exact ((runAll_cons hinit _).trans hrun).trans (runAll_cons hfinal [])
  · rw [hctx]
    rfl

end

/-! # Proofs: the encoding of the commands (spec/30_encoding.md R70 to R80) -/

/-! ## The decoder and the encoder (R71 to R77, R80) -/

section

namespace Sys2Proof

/-- The operand fields that the command's row of R73 lists hold the command's operands; the other
fields are free (R74). -/
def Record.holdsOperands (r : Record) : Instr → Prop
  | .init _ => True
  | .update _ a0 a1 => r.a0 = a0 ∧ r.a1 = a1
  | .final _ a2 => r.a2 = a2
  | .block a0 a1 a2 | .blockCtx _ a0 a1 a2 => r.a0 = a0 ∧ r.a1 = a1 ∧ r.a2 = a2

/-- The words R75, R76 and R72 reserve: a reserved bit set, a reserved `OP`, or BLOCK with a context. -/
def reservedWord (w : Word) : Prop :=
  w.toNat / 65536 ≠ 0 ∨ w.toNat / 16 % 16 ≠ 0 ∨ w.toNat % 16 = 0 ∨ 6 ≤ w.toNat % 16 ∨
    (w.toNat % 16 = 4 ∧ w.toNat / 256 % 256 ≠ 0)

@[simp] theorem opField_commandWord (o : BitVec 4) (c : CtxIdx) : opField (commandWord o c) = o := by
  obtain ⟨h, -⟩ := Laws.CommandWord.fields o c
  exact BitVec.eq_of_toNat_eq h

@[simp] theorem ctxField_commandWord (o : BitVec 4) (c : CtxIdx) : ctxField (commandWord o c) = c := by
  obtain ⟨-, h, -⟩ := Laws.CommandWord.fields o c
  exact BitVec.eq_of_toNat_eq h

@[simp] theorem rsv0Field_commandWord (o : BitVec 4) (c : CtxIdx) :
    rsv0Field (commandWord o c) = 0 := by
  obtain ⟨-, -, h, -⟩ := Laws.CommandWord.fields o c
  exact BitVec.eq_of_toNat_eq h

@[simp] theorem rsv1Field_commandWord (o : BitVec 4) (c : CtxIdx) :
    rsv1Field (commandWord o c) = 0 := by
  obtain ⟨-, -, -, h⟩ := Laws.CommandWord.fields o c
  exact BitVec.eq_of_toNat_eq h

/-- A word with both reserved fields 0 is assembled from its `OP` and its `CTX` (R71). -/
theorem eq_commandWord {w : Word} {o : BitVec 4} (h1 : ¬ rsv1Field w ≠ 0) (h0 : ¬ rsv0Field w ≠ 0)
    (ho : (opField w).toNat = o.toNat) : w = commandWord o (ctxField w) := by
  rw [ne_zero_iff_toNat, rsv1Field_toNat] at h1
  rw [ne_zero_iff_toNat, rsv0Field_toNat] at h0
  rw [opField_toNat] at ho
  apply BitVec.eq_of_toNat_eq
  rw [commandWord_toNat, ctxField_toNat]
  omega

/-- What a record decodes to: a command that assembles to the same word, with the operands the record
holds; or ILLEGAL, for a reserved word only. -/
theorem decode_spec (r : Record) :
    (∃ i, decode r = .ok i ∧ r.cmd = (encode i).cmd ∧ r.holdsOperands i) ∨
      ((∃ e, decode r = .error e) ∧ reservedWord r.cmd) := by
  unfold decode
  split
  · next h1 =>
    rw [ne_zero_iff_toNat, rsv1Field_toNat] at h1
    exact .inr ⟨⟨_, rfl⟩, .inl h1⟩
  · next h1 =>
    split
    · next h0 =>
      rw [ne_zero_iff_toNat, rsv0Field_toNat] at h0
      exact .inr ⟨⟨_, rfl⟩, .inr (.inl h0)⟩
    · next h0 =>
      split
      · next ho => exact .inl ⟨_, rfl, eq_commandWord (o := 1) h1 h0 ho, trivial⟩
      · next ho => exact .inl ⟨_, rfl, eq_commandWord (o := 2) h1 h0 ho, rfl, rfl⟩
      · next ho => exact .inl ⟨_, rfl, eq_commandWord (o := 3) h1 h0 ho, rfl⟩
      · next ho =>
        have hword := eq_commandWord (o := 4) h1 h0 ho
        split
        · next hc =>
          rw [ne_zero_iff_toNat, ctxField_toNat] at hc
          rw [opField_toNat] at ho
          exact .inr ⟨⟨_, rfl⟩, .inr (.inr (.inr (.inr ⟨ho, hc⟩)))⟩
        · next hc =>
          rw [not_not.1 hc] at hword
          exact .inl ⟨_, rfl, hword, rfl, rfl, rfl⟩
      · next ho => exact .inl ⟨_, rfl, eq_commandWord (o := 5) h1 h0 ho, rfl, rfl, rfl⟩
      · next n1 n2 n3 n4 n5 =>
        simp only [opField_toNat, imp_false] at n1 n2 n3 n4 n5
        refine .inr ⟨⟨_, rfl⟩, ?_⟩
        unfold reservedWord
        omega

/-- A record with a command's word and, where R73 lists them, its operands decodes to that command,
whatever the other operand fields hold (R73, R74, R77). -/
theorem decode_of_holdsOperands {r : Record} {i : Instr} (hcmd : r.cmd = (encode i).cmd)
    (hops : r.holdsOperands i) : decode r = .ok i := by
  cases i with
  | init c => simp [decode, hcmd, encode]
  | update c a0 a1 =>
    obtain ⟨rfl, rfl⟩ := hops
    simp [decode, hcmd, encode]
  | final c a2 =>
    cases hops
    simp [decode, hcmd, encode]
  | block a0 a1 a2 | blockCtx c a0 a1 a2 =>
    obtain ⟨rfl, rfl, rfl⟩ := hops
    simp [decode, hcmd, encode]

theorem encode_holdsOperands (i : Instr) : (encode i).holdsOperands i := by
  cases i <;> simp [Record.holdsOperands, encode]

theorem decode_encode (i : Instr) : decode (encode i) = .ok i :=
  decode_of_holdsOperands rfl (encode_holdsOperands i)

/-- The limits of the two fields of a command's word (R72, R73). -/
theorem commandWord_limits (i : Instr) :
    Laws.CommandWord.ctx i < 256 ∧ 1 ≤ Laws.CommandWord.op i ∧ Laws.CommandWord.op i ≤ 5 ∧
      (Laws.CommandWord.op i = 4 → Laws.CommandWord.ctx i = 0) := by
  cases i with
  | block a0 a1 a2 => simp [Laws.CommandWord.op, Laws.CommandWord.ctx]
  | init c | update c a0 a1 | final c a2 | blockCtx c a0 a1 a2 =>
    simpa [Laws.CommandWord.op, Laws.CommandWord.ctx] using c.isLt

/-- The word of a command as a number (R71, R80). -/
theorem encode_cmd_toNat (i : Instr) :
    (encode i).cmd.toNat = 256 * Laws.CommandWord.ctx i + Laws.CommandWord.op i := by
  obtain ⟨hctx, -, hop, -⟩ := commandWord_limits i
  rw [encode_cmd, BitVec.toNat_ofNat]
  omega

/-- No command assembles to a reserved word. -/
theorem not_reservedWord_encode (i : Instr) : ¬ reservedWord (encode i).cmd := by
  obtain ⟨hctx, hlo, hhi, hblock⟩ := commandWord_limits i
  rw [reservedWord, encode_cmd_toNat]
  omega

end Sys2Proof

open Sys2Proof

/-- Settles O1: a command's own record holds its word and its operands, and a record that decodes
holds the word of the command it decodes to. -/
theorem decodeAndEncodeAgree : Obligations.DecodeAndEncodeAgree := by
  unfold Obligations.DecodeAndEncodeAgree
  refine ⟨decode_encode, fun r i h => ?_⟩
  rcases decode_spec r with ⟨j, hj, hcmd, -⟩ | ⟨⟨e, he⟩, -⟩
  · cases hj.symm.trans h
    exact hcmd.symm
  · cases he.symm.trans h

/-- Settles O2: ILLEGAL is decoded for a reserved word only, and what decodes to a command has that
command's word, which is not reserved. -/
theorem illegalWordsAreExactlyTheReservedOnes :
    Obligations.IllegalWordsAreExactlyTheReservedOnes := by
  unfold Obligations.IllegalWordsAreExactlyTheReservedOnes
  intro r
  rcases decode_spec r with ⟨i, hi, hcmd, -⟩ | ⟨he, hres⟩
  · exact ⟨fun ⟨e, he⟩ => (by cases hi.symm.trans he),
      fun hres => absurd (hcmd ▸ hres) (not_reservedWord_encode i)⟩
  · exact ⟨fun _ => hres, fun _ => he⟩

/-- Settles O4: each of the five is the record its command assembles to. -/
theorem exampleWordsDecode : Obligations.ExampleWordsDecode := by
  unfold Obligations.ExampleWordsDecode
  exact ⟨decode_encode (.init 0), decode_encode (.update 1 0x1000 3),
    decode_encode (.final 0 0x2000), decode_encode (.block 0x1000 3 0x2000),
    decode_encode (.blockCtx 2 0x1000 3 0x2000)⟩

end

/-! ## A record given to the core (R70, R74, R77) -/

section

namespace Sys2Proof

/-- A record is not well formed exactly when an operand field is no `AW`-bit value (R70). -/
theorem Record.wellFormed_eq_false {aw : Nat} {r : Record} :
    r.wellFormed aw = false ↔ 2 ^ aw ≤ r.a0.toNat ∨ 2 ^ aw ≤ r.a1.toNat ∨ 2 ^ aw ≤ r.a2.toNat := by
  simp only [Record.wellFormed, fits, Bool.and_eq_false_iff, decide_eq_false_iff_not, not_lt,
    or_assoc]

/-- The command word is one of INIT, UPDATE or FINAL, and the two records agree in the operand fields
that command reads (R73, R74). -/
def Record.agreesInOperands (r r' : Record) : Prop :=
  r.cmd.toNat % 16 = 1 ∨ (r.cmd.toNat % 16 = 2 ∧ r'.a0 = r.a0 ∧ r'.a1 = r.a1) ∨
    (r.cmd.toNat % 16 = 3 ∧ r'.a2 = r.a2)

/-- The operands a command reads are the same in two such records. -/
theorem Record.holdsOperands_of_agree {r r' : Record} {i : Instr} (hcmd : r.cmd = (encode i).cmd)
    (hagree : r.agreesInOperands r') (hops : r.holdsOperands i) : r'.holdsOperands i := by
  have hop : r.cmd.toNat % 16 = Laws.CommandWord.op i % 16 := by
    rw [hcmd, encode_cmd_toNat]
    omega
  rw [Record.agreesInOperands, hop] at hagree
  cases i with
  | init c => trivial
  | update c a0 a1 =>
    obtain ⟨rfl, rfl⟩ := hops
    simpa [Laws.CommandWord.op, Record.holdsOperands] using hagree
  | final c a2 =>
    cases hops
    simpa [Laws.CommandWord.op, Record.holdsOperands] using hagree
  | block a0 a1 a2 | blockCtx c a0 a1 a2 => simp [Laws.CommandWord.op] at hagree

end Sys2Proof

open Sys2Proof Sys2Proof.Machine

/-- Settles O3: both records decode to the same command, or both to ILLEGAL with the same word. -/
theorem unusedOperandsChangeNothing : Obligations.UnusedOperandsChangeNothing := by
  unfold Obligations.UnusedOperandsChangeNothing
  intro s r r' hw hw' hcmd hagree
  rcases decode_spec r with ⟨i, hi, hword, hops⟩ | ⟨⟨e, he⟩, hres⟩
  · have hi' := decode_of_holdsOperands (hcmd.trans hword)
      (Record.holdsOperands_of_agree hword hagree hops)
    rw [issue_ok hw hi, issue_ok hw' hi']
  · rcases decode_spec r' with ⟨j, -, hword', -⟩ | ⟨⟨e', he'⟩, -⟩
    · rw [← hcmd, hword'] at hres
      exact absurd hres (not_reservedWord_encode j)
    · rw [issue_illegal hw he, issue_illegal hw' he', hcmd]

/-- Settles O6: the step takes the event, and the one check of an illegal word fails. -/
theorem illegalWordFaults : Obligations.IllegalWordFaults := by
  unfold Obligations.IllegalWordFaults
  intro s r rest e hhost hw hd hcode
  have hissue := issue_illegal (s := s.setHost rest) hw hd
  rw [attempt_fault ((s.setHost rest).not_halted_iff.2 hcode) (firstViolation_some _ _)] at hissue
  rw [step_event hhost]
  exact hissue

/-- Settles O14: the step takes the event, and the record is not well formed. -/
theorem overwideRecordIsRefused : Obligations.OverwideRecordIsRefused := by
  unfold Obligations.OverwideRecordIsRefused
  intro s r rest hhost hwide
  rw [step_event hhost]
  exact issue_wide (s := s.setHost rest) (Record.wellFormed_eq_false.2 hwide)

end

/-! # Proofs: the constants, functions and steps of the Block Compressor (spec/41_compressor.md), and
the result of INIT (spec/42_driver.md R130) -/

/-! ## The constants are fractional roots of primes (R102, R103) -/

section

namespace Sys2Proof.Machine

/-- `w` is the first 32 bits of the fractional part of the `k`-th root of `p`: with an integer part
below `q` in front, it is the root times `2^32`, rounded down. -/
def isRootFraction (k q p : Nat) (w : Word) : Prop :=
  ∃ i : Fin q, (i.val * 2 ^ 32 + w.toNat) ^ k ≤ p * 2 ^ (32 * k) ∧
    p * 2 ^ (32 * k) < (i.val * 2 ^ 32 + w.toNat + 1) ^ k

theorem isRootFraction.exists_floor {k q p : Nat} {w : Word} (hw : isRootFraction k q p w) :
    ∃ n : Nat, n ^ k ≤ p * 2 ^ (32 * k) ∧ p * 2 ^ (32 * k) < (n + 1) ^ k ∧
      w.toNat = n % 2 ^ 32 := by
  obtain ⟨i, hle, hlt⟩ := hw
  have hmod := w.isLt
  exact ⟨_, hle, hlt, by omega⟩

/-- The square roots of the first eight primes have integer parts of at most 4. -/
theorem initialHash_isRootFraction :
    ∀ j : Fin 8, isRootFraction 2 5 (Claim.primes64.getD j.val 0) initialHash[j] := by
  unfold isRootFraction
  decide

/-- The cube roots of the first 64 primes have integer parts of at most 6. -/
theorem roundConstants_isRootFraction : ∀ t : Fin 64,
    isRootFraction 3 7 (Claim.primes64.getD t.val 0) (roundConstants.getD t.val 0) := by
  unfold isRootFraction
  decide

end Sys2Proof.Machine

open Sys2Proof.Machine

/-- Settles O47, with each word and the integer part of its root. -/
theorem initialWordsAreSquareRoots : Obligations.InitialWordsAreSquareRoots := by
  unfold Obligations.InitialWordsAreSquareRoots
  exact fun j => (initialHash_isRootFraction j).exists_floor

/-- Settles O48, with each constant and the integer part of its root. -/
theorem roundConstantsAreCubeRoots : Obligations.RoundConstantsAreCubeRoots := by
  unfold Obligations.RoundConstantsAreCubeRoots
  exact ⟨rfl, fun t => (roundConstants_isRootFraction t).exists_floor⟩

end

/-! ## The primitive functions, bit by bit (R104 to R110) -/

section

namespace Sys2Proof.Machine

/-- A rotation to the right takes bit `i` from bit `i + n`, around the end of the word (R104). -/
theorem rotr_getLsbD (x : Word) {n i : Nat} (hn : n ≤ 31) (hi : i < 32) :
    (rotr x n).getLsbD i = x.getLsbD ((i + n) % 32) := by
  rw [rotr_eq_rotateRight x hn, BitVec.getLsbD_rotateRight, Nat.mod_eq_of_lt (by omega : n < 32)]
  rcases Nat.lt_or_ge i (32 - n) with h | h
  · rw [decide_eq_true h, cond_true, Nat.mod_eq_of_lt (by omega), Nat.add_comm]
  · have hwrap : (i + n) % 32 = i - (32 - n) := by omega
    simp [hi, hwrap, Nat.not_lt.2 h]

theorem shr_toNat (x : Word) (n : Nat) : (shr x n).toNat = x.toNat / 2 ^ n := by
  rw [shr, BitVec.toNat_ushiftRight, Nat.shiftRight_eq_div_pow]

theorem ch_getLsbD (x y z : Word) {i : Nat} (hi : i < 32) :
    (ch x y z).getLsbD i = if x.getLsbD i then y.getLsbD i else z.getLsbD i := by
  simp only [ch, BitVec.getLsbD_xor, BitVec.getLsbD_and, BitVec.getLsbD_not, hi, decide_true]
  cases x.getLsbD i <;> simp

theorem maj_getLsbD (x y z : Word) (i : Nat) :
    (maj x y z).getLsbD i =
      decide (2 ≤ (x.getLsbD i).toNat + (y.getLsbD i).toNat + (z.getLsbD i).toNat) := by
  simp only [maj, BitVec.getLsbD_xor, BitVec.getLsbD_and]
  cases x.getLsbD i <;> cases y.getLsbD i <;> cases z.getLsbD i <;> rfl

end Sys2Proof.Machine

open Sys2Proof.Machine

/-- Settles O50. -/
theorem rotateAndShift : Obligations.RotateAndShift := by
  unfold Obligations.RotateAndShift
  exact fun x n _ hn => ⟨fun _ hi => rotr_getLsbD x hn hi, shr_toNat x n⟩

/-- Settles O51. -/
theorem choiceAndMajorityBitwise : Obligations.ChoiceAndMajorityBitwise := by
  unfold Obligations.ChoiceAndMajorityBitwise
  exact fun x y z i hi => ⟨ch_getLsbD x y z hi, maj_getLsbD x y z i⟩

/-- Settles O52: every amount is at most 31, so each `ROTR` is Lean's rotation. -/
theorem sigmaFunctions : Obligations.SigmaFunctions := by
  unfold Obligations.SigmaFunctions
  intro x
  have hrot : ∀ n ≤ 31, rotr x n = x.rotateRight n := fun n hn => rotr_eq_rotateRight x hn
  refine ⟨?_, ?_, ?_, ?_⟩
  · rw [bigSigma0, hrot 2 (by decide), hrot 13 (by decide), hrot 22 (by decide)]
  · rw [bigSigma1, hrot 6 (by decide), hrot 11 (by decide), hrot 25 (by decide)]
  · rw [smallSigma0, hrot 7 (by decide), hrot 18 (by decide), shr]
  · rw [smallSigma1, hrot 17 (by decide), hrot 19 (by decide), shr]

end

/-! ## The message schedule (R111, R112) -/

section

namespace Sys2Proof.Machine

/-- What the recurrence makes of the words before `W[t]` (R112). -/
def recurrence (w : List Word) (t : Nat) : Word :=
  smallSigma1 (w.getD (t - 2) 0) + w.getD (t - 7) 0 + smallSigma0 (w.getD (t - 15) 0) +
    w.getD (t - 16) 0

theorem scheduleNext_eq (w : List Word) : scheduleNext w = w ++ [recurrence w w.length] := rfl

/-- The recurrence reads words before `W[t]` only. -/
theorem recurrence_congr {w w' : List Word} {t : Nat} (ht : 0 < t)
    (h : ∀ k < t, w.getD k 0 = w'.getD k 0) : recurrence w t = recurrence w' t := by
  rw [recurrence, recurrence, h (t - 2) (by omega), h (t - 7) (by omega), h (t - 15) (by omega),
    h (t - 16) (by omega)]

/-- Each word that extending the schedule appends follows the recurrence (R112). -/
theorem scheduleExtend_recurrence (n : Nat) {w : List Word} (hw : 0 < w.length) {t : Nat}
    (hlo : w.length ≤ t) (hhi : t < w.length + n) :
    (scheduleExtend n w).getD t 0 = recurrence (scheduleExtend n w) t := by
  induction n generalizing w with
  | zero => omega
  | succ n ih =>
    rw [scheduleExtend]
    rcases Nat.eq_or_lt_of_le hlo with rfl | hlt
    · have hkept : ∀ k < w.length, (scheduleExtend n (scheduleNext w)).getD k 0 = w.getD k 0 :=
        fun k hk => scheduleExtend_prefix (n + 1) w hk
      rw [recurrence_congr hw hkept, scheduleExtend_prefix n _ (by simp), scheduleNext_eq]
      simp
    · have hlen := scheduleNext_length w
      exact ih (by omega) (by omega) (by omega)

theorem schedule_length (blk : Block) : (schedule blk).length = 64 := by
  rw [schedule, scheduleExtend_length, blockWords_length]

/-- The schedule starts with the words of the block (R111). -/
theorem schedule_getD_blockWord (blk : Block) (t : Fin 16) :
    (schedule blk).getD t.val 0 = blockWord blk t := by
  rw [schedule, scheduleExtend_prefix _ _ (by simp), blockWords,
    List.getD_eq_getElem _ _ (by simp), List.getElem_ofFn]

end Sys2Proof.Machine

open Sys2Proof.Machine

/-- Settles O53: extending the schedule keeps the words of the block and appends by the recurrence. -/
theorem scheduleFollowsTheRecurrence : Obligations.ScheduleFollowsTheRecurrence := by
  unfold Obligations.ScheduleFollowsTheRecurrence
  refine fun blk => ⟨schedule_length blk, fun t => ?_, fun t hlo hhi => ?_⟩
  · rw [schedule_getD_blockWord, blockWord, be32_toNat]
  · have hlen := blockWords_length blk
    exact scheduleExtend_recurrence 48 (by omega) (by omega) (by omega)

end

/-! ## The rounds (R113, R114) -/

section

namespace Sys2Proof.Machine

/-- The working variables after the first `t` rounds (R113). -/
def workAfter (h : HashWords) (w : List Word) (t : Nat) : Work :=
  ((roundConstants.zip w).take t).foldl roundStep (workInit h)

theorem workAfter_zero (h : HashWords) (w : List Word) : workAfter h w 0 = workInit h := rfl

/-- Round `t` takes `K[t]` and `W[t]` (R113). -/
theorem workAfter_succ (h : HashWords) {w : List Word} (hw : w.length = 64) {t : Nat} (ht : t < 64) :
    workAfter h w (t + 1) = roundStep (workAfter h w t) (roundConstants.getD t 0, w.getD t 0) :=
  rounds_succ roundConstants w _ ht (hw ▸ ht)

/-- One round from its two sums (R113). -/
theorem roundStep_of_sums (v : Work) (k w : Word) :
    ∃ t1 t2 : Word, t1 = v.h + bigSigma1 v.e + ch v.e v.f v.g + k + w ∧
      t2 = bigSigma0 v.a + maj v.a v.b v.c ∧
      roundStep v (k, w) = ⟨t1 + t2, v.a, v.b, v.c, v.d + t1, v.e, v.f, v.g⟩ :=
  ⟨roundT1 v k w, roundT2 v, rfl, rfl, rfl⟩

theorem workAfter_rounds (h : HashWords) (w : List Word) : workAfter h w 64 = rounds h w := by
  have hlen : (roundConstants.zip w).length ≤ 64 := by
    rw [List.length_zip]
    exact Nat.min_le_left _ _
  rw [workAfter, List.take_of_length_le hlen, rounds]

end Sys2Proof.Machine

open Sys2Proof.Machine

/-- Settles O54, with the working variables after each number of rounds. -/
theorem compressIsSixtyFourRounds : Obligations.CompressIsSixtyFourRounds := by
  unfold Obligations.CompressIsSixtyFourRounds
  refine fun h blk => ⟨workAfter h (schedule blk), workAfter_zero h _, fun t ht => ?_, ?_⟩
  · rw [workAfter_succ h (schedule_length blk) ht]
    exact roundStep_of_sums _ _ _
  · rw [compress, ← workAfter_rounds, addWork]

end

/-! ## INIT (R130) -/

section

namespace Sys2Proof.Machine

open Sys2Proof.Claim

/-- Writing a context leaves the others (R7). -/
theorem State.setCtx_sameOtherCtxs (s : State) (c : CtxIdx) (x : Ctx) :
    sameOtherCtxs c s (s.setCtx c x) :=
  ⟨s.setCtx_nctx c x, fun _ hn => List.getElem?_set_ne hn.symm⟩

end Sys2Proof.Machine

open Sys2Proof.Machine

/-- Settles O22: the one check passes, and INIT replaces the named context by what INIT-body makes of
it. -/
theorem initCompletes : Obligations.InitCompletes := by
  unfold Obligations.InitCompletes
  intro s c x hcode hx
  have hnew : (s.setCtx c (initBody s.cfg.shaMagic x)).ctx? c =
      some (initBody s.cfg.shaMagic x) := by
    rw [State.setCtx_ctx?, if_pos rfl, if_pos (State.lt_of_ctx? hx)]
  exact ⟨_, exec_init_of_ctx? hcode hx, hnew, s.setCtx_sameOtherCtxs c _, ⟨rfl, rfl, rfl, rfl, rfl⟩,
    rfl, fun _ => rfl, rfl, rfl⟩

end

/-! # Proofs: the streaming driver (spec/42_driver.md R130 to R156) -/

/-! ## The checks of INIT, and an UPDATE of nothing (R130, R147) -/

section

open Sys2Proof.Machine Sys2Proof.Claim

/-- Settles O16: the one check of INIT, by its equation. -/
theorem initChecksInOrder : Obligations.InitChecksInOrder := by
  unfold Obligations.InitChecksInOrder
  intro s c hcode
  exact exec_if_check hcode (checkContext_eq s c) rfl (exec_not_faulted hcode)

/-- Settles O24: the two context checks, each by its equation; on a Ready context the checks of the
data and of the length pass for an empty range, and the effect is none. -/
theorem updateOfNothingIsANoOp : Obligations.UpdateOfNothingIsANoOp := by
  unfold Obligations.UpdateOfNothingIsANoOp
  intro s c a0 hcode
  refine exec_if_check hcode (checkContext_eq s c) rfl fun hcs => ?_
  split
  · next hready =>
    obtain ⟨x, hx, hphase⟩ := Option.map_eq_some_iff.1 hready
    rw [exec_update_of_dataOk hcode hx hphase (.inl rfl) x.bitcnt.isLt, effectOf,
      updateEffect_zero]
  · next hready =>
    refine exec_faulted hcode (v := ⟨.notReady, asAddr c⟩) ?_
    rw [hcs, checkReady_eq, if_pos hready, firstViolation_some]

end

/-! ## FINAL: the blocks it compresses and the digest it writes (R150 to R156) -/

section

namespace Sys2Proof.Machine

/-- FINAL compresses a second block exactly when the footer no longer fits in the first (R152). -/
theorem finalBlocks_length (x : Ctx) :
    (finalBlocks x).length = if x.bufcnt.toNat ≤ 55 then 1 else 2 := by
  unfold finalBlocks
  split
  · next h => rw [if_neg (by omega)]; rfl
  · next h => rw [if_pos (by omega)]; rfl

end Sys2Proof.Machine

open Sys2Proof.Machine

/-- Settles O28: the length of the list of blocks, in the arithmetic of `n / 64` and `n % 64`. -/
theorem finalCompressesOneOrTwoBlocks : Obligations.FinalCompressesOneOrTwoBlocks := by
  unfold Obligations.FinalCompressesOneOrTwoBlocks
  refine ⟨finalBlocks_length, fun x n hn => ?_⟩
  rw [finalBlocks_length, hn]
  split <;> omega

/-- Settles O27: the checks pass, the digest is that of the padded stream, and the rest is the frame
of an effect. -/
theorem finalWritesThePaddedDigest : Obligations.FinalWritesThePaddedDigest := by
  unfold Obligations.FinalWritesThePaddedDigest
  intro s c a2 x hcode hx hready hcnt hdigest hmem
  have hctx := effectOf_ctx? (i := .final c a2) (c := c) rfl s
  rw [hx, Option.map_some] at hctx
  have hwritten := effectOf_final_mem hx a2
  rw [finalDigest, finalHash_eq_hashOf hcnt] at hwritten
  exact ⟨_, _, exec_final_of_digestOk hcode hx hready hdigest, hctx, Ctx.drawn_phase _ _,
    hwritten ▸ holdsBytes_writeBytes hmem _ _,
    hwritten ▸ sameOutside_writeBytes _ _ (digestBytes_length _),
    effectOf_sameOtherCtxs rfl s, effectOf_sameControl _ s, effectOf_scr s (by simp)⟩

end

/-! ## UPDATE: a chunk in parts, and the direct block path (R146, R148) -/

section

namespace Sys2Proof.Machine

open Sys2Proof.Claim

/-! ### Contexts with the same valid bytes -/

theorem Ctx.SameValid.trans {x y z : Ctx} (hxy : x.SameValid y) (hyz : y.SameValid z) :
    x.SameValid z where
  h := hxy.h.trans hyz.h
  bufcnt := hxy.bufcnt.trans hyz.bufcnt
  bitcnt := hxy.bitcnt.trans hyz.bitcnt
  tag := hxy.tag.trans hyz.tag
  phase := hxy.phase.trans hyz.phase
  pending := hxy.pending.trans hyz.pending

theorem Ctx.SameValid.symm {x y : Ctx} (hxy : x.SameValid y) : y.SameValid x where
  h := hxy.h.symm
  bufcnt := hxy.bufcnt.symm
  bitcnt := hxy.bitcnt.symm
  tag := hxy.tag.symm
  phase := hxy.phase.symm
  pending := hxy.pending.symm

/-- Taking bytes reads no byte of `BUF` that is not valid (R22, R140). -/
theorem Ctx.SameValid.foldl_takeByte {x y : Ctx} (hxy : x.SameValid y)
    (hx : x.bufcnt.toNat ≤ 63) (l : List Byte) :
    (l.foldl takeByte x).SameValid (l.foldl takeByte y) := by
  have hy : y.bufcnt.toNat ≤ 63 := hxy.bufcnt ▸ hx
  obtain ⟨hhx, hpx⟩ := foldl_takeByte_stream l hx
  obtain ⟨hhy, hpy⟩ := foldl_takeByte_stream l hy
  obtain ⟨hbx, htx, hfx⟩ := foldl_takeByte_fields l x
  obtain ⟨hby, hty, hfy⟩ := foldl_takeByte_fields l y
  have hcnt : (l.foldl takeByte x).bufcnt.toNat = (l.foldl takeByte y).bufcnt.toNat := by
    rw [foldl_takeByte_bufcnt l hx, foldl_takeByte_bufcnt l hy, hxy.bufcnt]
  exact {
    h := by rw [hhx, hhy, hxy.h, hxy.pending]
    bufcnt := BitVec.eq_of_toNat_eq hcnt
    bitcnt := by rw [hbx, hby, hxy.bitcnt]
    tag := by rw [htx, hty, hxy.tag]
    phase := by rw [hfx, hfy, hxy.phase]
    pending := by rw [hpx, hpy, hxy.pending, hxy.bufcnt] }

/-! ### A chunk in two parts (R148) -/

/-- The context with this `BITCNT` (R24). -/
def Ctx.withBitcnt (x : Ctx) (n : BitVec 64) : Ctx := { x with bitcnt := n }

/-- Taking bytes does not read `BITCNT` (R140). -/
theorem foldl_takeByte_withBitcnt (l : List Byte) (x : Ctx) (n : BitVec 64) :
    l.foldl takeByte (x.withBitcnt n) = (l.foldl takeByte x).withBitcnt n := by
  induction l generalizing x with
  | nil => rfl
  | cons b l ih =>
    have hbyte : takeByte (x.withBitcnt n) b = (takeByte x b).withBitcnt n := by
      simp only [takeByte, apply_ite (Ctx.withBitcnt · n)]
      rfl
    rw [List.foldl_cons, hbyte, ih, List.foldl_cons]

/-- UPDATE-body takes the bytes and counts their bits, in either order (R140, R143). -/
theorem updateBody_eq_withBitcnt (x : Ctx) (l : List Byte) :
    updateBody x l =
      (l.foldl takeByte x).withBitcnt (x.bitcnt + BitVec.ofNat 64 (8 * l.length)) :=
  foldl_takeByte_withBitcnt l x _

/-- UPDATE-body reads no byte of `BUF` that is not valid (R22, R140). -/
theorem Ctx.SameValid.updateBody {x y : Ctx} (hxy : x.SameValid y) (hx : x.bufcnt.toNat ≤ 63)
    (l : List Byte) : (updateBody x l).SameValid (updateBody y l) := by
  obtain ⟨hh, hbufcnt, -, htag, hphase, hpending⟩ := hxy.foldl_takeByte hx l
  rw [updateBody_eq_withBitcnt, updateBody_eq_withBitcnt, hxy.bitcnt]
  exact ⟨hh, hbufcnt, rfl, htag, hphase, hpending⟩

/-- UPDATE-body of two chunks in turn is UPDATE-body of both at once (R144, R148). -/
theorem updateBody_append (x : Ctx) (l r : List Byte) :
    updateBody x (l ++ r) = updateBody (updateBody x l) r := by
  have hbits : x.bitcnt + BitVec.ofNat 64 (8 * (l ++ r).length) =
      (updateBody x l).bitcnt + BitVec.ofNat 64 (8 * r.length) := by
    rw [updateBody_bitcnt, List.length_append, Nat.mul_add, BitVec.ofNat_add, BitVec.add_assoc]
  rw [updateBody_eq_withBitcnt x, hbits, List.foldl_append,
    updateBody_eq_withBitcnt (updateBody x l), updateBody_eq_withBitcnt x l,
    foldl_takeByte_withBitcnt]
  rfl

/-- The bytes of a range are those of its two parts, one after the other (R53). -/
theorem hostBytes_append (m : Memory) {a0 n₁ n₂ : Addr}
    (hrange : a0.toNat + n₁.toNat + n₂.toNat ≤ 2 ^ 64) (hlen : n₁.toNat + n₂.toNat < 2 ^ 64) :
    hostBytes m a0 (n₁ + n₂) = hostBytes m a0 n₁ ++ hostBytes m (a0 + n₁) n₂ := by
  rw [hostBytes, BitVec.toNat_add_of_lt hlen, List.range_add, List.map_append, List.map_map]
  congr 1
  refine List.map_congr_left fun i hi => ?_
  have hlt : a0.toNat + n₁.toNat < 2 ^ 64 := by
    have := List.mem_range.1 hi
    omega
  rw [Function.comp_apply, BitVec.toNat_add_of_lt hlt, Nat.add_assoc]

/-- A command after which no fault is recorded ran on a running core, and had its effect. -/
theorem exec_completed {i : Instr} {s t : State} (h : exec i s = .next t) (ht : t.code = 0) :
    s.code = 0 ∧ t = effectOf i s := by
  rcases exec_inv h with ⟨hh, hts⟩ | ⟨-, v, -, rfl⟩ | ⟨hh, -, hef⟩
  · exact absurd (hts ▸ ht) (s.halted_iff.1 hh)
  · exact absurd ht v.code.bits_ne_zero
  · exact ⟨s.not_halted_iff.1 hh, hef⟩

/-- What an UPDATE that completed leaves in the context it names. -/
theorem exec_update_completed {s t : State} {c : CtxIdx} {a0 a1 : Addr} {x : Ctx}
    (h : exec (.update c a0 a1) s = .next t) (ht : t.code = 0) (hx : s.ctx? c = some x) :
    t.mem = s.mem ∧
      ∃ y, t.ctx? c = some y ∧ y.SameValid (updateBody x (hostBytes s.mem a0 a1)) := by
  obtain ⟨-, rfl⟩ := exec_completed h ht
  have hctx := effectOf_ctx? (i := .update c a0 a1) (c := c) rfl s
  rw [hx, Option.map_some] at hctx
  rw [← s.message_eq_hostBytes]
  exact ⟨effectOf_mem_of_no_digest rfl s, _, hctx, namedCtxAfter_update_sameValid s c a0 a1 x⟩

/-! ### The direct block path (R146) -/

/-- A stream of at least a block is its first 64 bytes as a block, and the rest. -/
theorem firstBlock_append {l : List Byte} (hl : 64 ≤ l.length) :
    (Vector.ofFn fun k : Fin 64 => l.getD k.val 0).toList ++ l.drop 64 = l := by
  obtain ⟨blk, r, rfl⟩ := exists_block_append hl
  have hblk : (Vector.ofFn fun k : Fin 64 => (blk.toList ++ r).getD k.val 0) = blk := by
    ext k hk
    simp [List.getElem?_append_left]
  rw [hblk, List.drop_left' blk.length_toList]

/-- With no bytes held back, taking the bytes of a block is compressing it (R142, R146). -/
theorem foldl_takeByte_block {x : Ctx} (hx : x.bufcnt = 0) (blk : Block) :
    (blk.toList.foldl takeByte x).SameValid { x with h := compress x.h blk } := by
  have hle : x.bufcnt.toNat ≤ 63 := by rw [hx]; decide
  have hempty : x.pending = [] := by rw [Ctx.pending, hx]; rfl
  have hlen : blk.toList.length = 64 := blk.length_toList
  have hhash : hashOf x.h blk.toList = compress x.h blk := by
    simpa [hashOf_of_lt] using hashOf_block_append x.h blk []
  obtain ⟨hh, hpending⟩ := foldl_takeByte_stream blk.toList hle
  obtain ⟨hbitcnt, htag, hphase⟩ := foldl_takeByte_fields blk.toList x
  have hbufcnt := foldl_takeByte_bufcnt blk.toList hle
  rw [hempty, List.nil_append] at hh hpending
  rw [hlen, hx] at hpending hbufcnt
  rw [List.drop_eq_nil_of_le (by rw [hlen]; decide)] at hpending
  exact ⟨hh.trans hhash, (BitVec.eq_of_toNat_eq hbufcnt).trans hx.symm, hbitcnt, htag, hphase,
    hpending.trans hempty.symm⟩

/-- The direct block path is UPDATE's loop but for bytes of `BUF` that are not valid: a block taken at
once is its 64 bytes taken in turn (R146). -/
theorem directTake_sameValid {n : Nat} {x : Ctx} {l : List Byte} (hx : x.bufcnt.toNat ≤ 63)
    (hl : l.length ≤ n) : (directTake n x l).SameValid (l.foldl takeByte x) := by
  induction n generalizing x l with
  | zero =>
    rw [List.eq_nil_of_length_eq_zero (Nat.le_zero.1 hl)]
    exact .refl x
  | succ n ih =>
    cases l with
    | nil => exact .refl x
    | cons b l =>
      rw [directTake]
      split
      · next hdirect =>
        obtain ⟨hempty, hlen⟩ := hdirect
        have hrest : ((b :: l).drop 64).length ≤ n := by
          rw [List.length_drop]
          omega
        have hblock := foldl_takeByte_block hempty (Vector.ofFn fun k => (b :: l).getD k.val 0)
        have htaken := hblock.symm.foldl_takeByte hx ((b :: l).drop 64)
        rw [← List.foldl_append, firstBlock_append hlen] at htaken
        exact Ctx.SameValid.trans (ih hx hrest) htaken
      · have hcnt := takeByte_bufcnt (b := b) hx
        exact ih (by omega) (Nat.le_of_succ_le_succ hl)

end Sys2Proof.Machine

open Sys2Proof.Machine

/-- Settles O25: the three UPDATEs have their effects, and UPDATE-body of the two parts in turn is
UPDATE-body of the whole chunk. -/
theorem splittingAChunkChangesNothing : Obligations.SplittingAChunkChangesNothing := by
  unfold Obligations.SplittingAChunkChangesNothing
  intro s t₁ t₂ t c a0 n₁ n₂ x y z _ hx _ hcnt hrange haw hlen h₁ h₂ h ht₂ ht hy hz
  have hrange64 : a0.toNat + n₁.toNat + n₂.toNat ≤ 2 ^ 64 :=
    hrange.trans (Nat.pow_le_pow_right (by decide) haw)
  have ht₁ : t₁.code = 0 := (exec_completed h₂ ht₂).1
  obtain ⟨hmem, x₁, hx₁, hfirst⟩ := exec_update_completed h₁ ht₁ hx
  obtain ⟨-, y', hy', hsecond⟩ := exec_update_completed h₂ ht₂ hx₁
  obtain ⟨-, z', hz', hwhole⟩ := exec_update_completed h ht hx
  obtain rfl : y' = y := Option.some.inj (hy'.symm.trans hy)
  obtain rfl : z' = z := Option.some.inj (hz'.symm.trans hz)
  have hcnt₁ : x₁.bufcnt.toNat ≤ 63 := by
    rw [hfirst.bufcnt, updateBody_bufcnt _ hcnt]
    omega
  rw [hmem] at hsecond
  rw [hostBytes_append s.mem hrange64 hlen, updateBody_append] at hwhole
  obtain ⟨hh, hbufcnt, hbitcnt, -, -, hpending⟩ :=
    hsecond.trans ((hfirst.updateBody hcnt₁ _).trans hwhole.symm)
  exact ⟨hh, hbufcnt, hbitcnt, hpending⟩

/-- Settles O26: the two loops leave the same valid bytes. -/
theorem directBlockPathAgrees : Obligations.DirectBlockPathAgrees := by
  unfold Obligations.DirectBlockPathAgrees
  intro x l hx
  obtain ⟨hh, hbufcnt, hbitcnt, -, -, hpending⟩ := directTake_sameValid hx le_rfl (l := l)
  rw [Ctx.pending, hbufcnt, Ctx.pending] at hpending
  exact ⟨hh, hbufcnt, hbitcnt, hpending⟩

end

/-! # Proofs: the phases of a context and the one-shot commands (spec/43_oneshot.md R172 to R181) -/

/-! ## The phase table (R180) -/

section

namespace Sys2Proof.Machine

open Sys2Proof.Claim

/-- The phase a command whose checks pass leaves in the context it names, which had phase `p`: the
column of the command in the phase table (R180). -/
def phaseAfter (p : Phase) : Instr → Phase
  | .init _ => .ready
  | .final _ _ | .blockCtx _ _ _ _ => .finalized
  | .update _ _ _ | .block _ _ _ => p

theorem namedCtxAfter_phase (s : State) (i : Instr) (x : Ctx) :
    (namedCtxAfter s i x).phase = phaseAfter x.phase i := by
  cases i with
  | init c => rfl
  | update c a0 a1 =>
    exact (namedCtxAfter_update_sameValid s c a0 a1 x).phase.trans (updateBody_phase x _)
  | final c a2 => rfl
  | block a0 a1 a2 => rfl
  | blockCtx c a0 a1 a2 => rfl

/-- A context that a command does not name, after its effect (R7). -/
theorem effectOf_ctx?_of_not_named {i : Instr} {c : CtxIdx} (hi : namedCtx i ≠ some c) (s : State) :
    (effectOf i s).ctx? c = s.ctx? c := by
  refine (effectOf_otherCtxs i s).2 c.toNat fun h => hi ?_
  obtain ⟨d, hd, hdc⟩ := Option.map_eq_some_iff.1 h
  rw [hd, BitVec.eq_of_toNat_eq hdc]

/-- The phase of every context after an effect (R180). -/
theorem effectOf_phase {i : Instr} {s : State} {c : CtxIdx} {x : Ctx} (hx : s.ctx? c = some x) :
    ∃ y, (effectOf i s).ctx? c = some y ∧
      y.phase = if namedCtx i = some c then phaseAfter x.phase i else x.phase := by
  split
  · next hi =>
    exact ⟨namedCtxAfter s i x, by rw [effectOf_ctx? hi, hx, Option.map_some],
      namedCtxAfter_phase s i x⟩
  · next hi => exact ⟨x, (effectOf_ctx?_of_not_named hi s).trans hx, rfl⟩

/-- A command that checks first that its context exists and then that it is Ready faults NOT_READY on
one that is not (R200, R202). -/
theorem exec_of_not_ready {i : Instr} {s : State} {c : CtxIdx} {x : Ctx}
    {rest : List (Option Violation)} (hcode : s.code = 0) (hx : s.ctx? c = some x)
    (hphase : x.phase ≠ .ready) (hcs : checksOf s i = checkContext s c :: checkReady s c :: rest) :
    exec i s = .next (faulted s 3
      (256 * Laws.CommandWord.ctx i + Laws.CommandWord.op i) (asAddr c)) := by
  refine exec_faulted (v := ⟨.notReady, asAddr c⟩) hcode ?_
  have hready : (s.ctx? c).map (·.phase) ≠ some .ready := by simpa [hx] using hphase
  rw [hcs, checkContext_eq_none.2 (State.lt_of_ctx? hx), firstViolation_none, checkReady_eq,
    if_pos hready, firstViolation_some]

end Sys2Proof.Machine

open Sys2Proof.Machine Sys2Proof.Claim

/-- Settles O37: a fault writes no context, an effect gives the named context the phase of the table
and leaves the others, and UPDATE and FINAL fail their check of the phase. -/
theorem phasesFollowTheTable : Obligations.PhasesFollowTheTable := by
  unfold Obligations.PhasesFollowTheTable
  intro i s t c x y hcode h hx hy
  have hnotReady : x.phase ≠ .ready →
      (∀ a0 a1, i = .update c a0 a1 → t.code = 3) ∧ (∀ a2, i = .final c a2 → t.code = 3) := by
    intro hphase
    have hfault : ∀ rest, checksOf s i = checkContext s c :: checkReady s c :: rest →
        t.code = 3 := by
      intro rest hcs
      cases h.symm.trans (exec_of_not_ready hcode hx hphase hcs)
      rfl
    exact ⟨fun a0 a1 hi => hfault _ (by rw [hi]; rfl), fun a2 hi => hfault _ (by rw [hi]; rfl)⟩
  rcases exec_inv h with ⟨hh, -⟩ | ⟨-, v, -, rfl⟩ | ⟨-, -, rfl⟩
  · exact absurd hcode (s.halted_iff.1 hh)
  · obtain rfl : x = y := Option.some.inj (hx.symm.trans hy)
    exact ⟨fun h0 => absurd h0 v.code.bits_ne_zero, fun _ => rfl, fun _ => rfl, hnotReady⟩
  · have hcode' : (effectOf i s).code = 0 := (effectOf_control i s).1.trans hcode
    obtain ⟨y', hy', hphase⟩ := effectOf_phase (i := i) hx
    obtain rfl : y' = y := Option.some.inj (hy'.symm.trans hy)
    refine ⟨fun _ => ?_, fun hne => absurd hcode' hne, fun hi => ?_, hnotReady⟩
    · cases i with
      | block a0 a1 a2 => exact hphase
      | update d a0 a1 => exact hphase.trans (ite_self _)
      | init d => simpa [namedCtx, phaseAfter] using hphase
      | final d a2 => simpa [namedCtx, phaseAfter] using hphase
      | blockCtx d a0 a1 a2 => simpa [namedCtx, phaseAfter] using hphase
    · rw [effectOf_ctx?_of_not_named hi, hx] at hy
      exact (Option.some.inj hy).symm

end

/-! ## One FINAL per INIT (R181) -/

section

namespace Sys2Proof.Machine

open Sys2Proof.Claim

/-- The machine has the context, and it is not Ready (R26). -/
def State.Unready (s : State) (c : CtxIdx) : Prop := ∃ x, s.ctx? c = some x ∧ x.phase ≠ .ready

/-- A halted core does nothing, whatever the command (R203). -/
theorem exec_of_halted {s : State} (hcode : s.code ≠ 0) (i : Instr) : exec i s = .next s := by
  rw [exec_eq, attempt_halted (s.halted_iff.2 hcode)]

/-- The checks of a command after which no fault is recorded passed. -/
theorem checks_of_completed {i : Instr} {s t : State} (h : exec i s = .next t) (ht : t.code = 0) :
    firstViolation (checksOf s i) = none := by
  rcases exec_inv h with ⟨hh, hts⟩ | ⟨-, v, -, rfl⟩ | ⟨-, hok, -⟩
  · exact absurd (hts ▸ ht) (s.halted_iff.1 hh)
  · exact absurd ht v.code.bits_ne_zero
  · exact hok

/-- Only an INIT of the context makes it Ready (R180). -/
theorem exec_unready {i : Instr} {s t : State} {c : CtxIdx} (h : exec i s = .next t)
    (hi : i ≠ .init c) (hs : s.Unready c) : t.Unready c := by
  obtain ⟨x, hx, hphase⟩ := hs
  rcases exec_inv h with ⟨-, rfl⟩ | ⟨-, v, -, rfl⟩ | ⟨-, -, rfl⟩
  · exact ⟨x, hx, hphase⟩
  · exact ⟨x, hx, hphase⟩
  · obtain ⟨y, hy, hyphase⟩ := effectOf_phase (i := i) hx
    refine ⟨y, hy, ?_⟩
    rw [hyphase]
    split
    · next hnamed =>
      cases i with
      | init d => exact absurd (congrArg Instr.init (Option.some.inj hnamed)) hi
      | update d a0 a1 => exact hphase
      | final d a2 => simp [phaseAfter]
      | block a0 a1 a2 => exact hphase
      | blockCtx d a0 a1 a2 => simp [phaseAfter]
    · exact hphase

/-- Without an INIT of the context, no commands make it Ready. -/
theorem runAll_unready {is : List Instr} {s t : State} {c : CtxIdx} (h : runAll is s = .next t)
    (his : .init c ∉ is) (hs : s.Unready c) : t.Unready c := by
  induction is generalizing s with
  | nil =>
    cases h
    exact hs
  | cons i is ih =>
    have hexec := exec_eq i s
    rw [runAll_cons hexec] at h
    exact ih h (List.not_mem_of_not_mem_cons his)
      (exec_unready hexec (List.ne_of_not_mem_cons his).symm hs)

/-- FINAL of a context that is not Ready faults NOT_READY, or does nothing on a halted core (R181,
R203). -/
theorem exec_final_of_unready {s : State} {c : CtxIdx} (hs : s.Unready c) (a2 : Addr) :
    exec (.final c a2) s =
      .next (if s.code = 0 then faulted s 3 (256 * c.toNat + 3) (asAddr c) else s) := by
  obtain ⟨x, hx, hphase⟩ := hs
  split
  · next hcode => exact exec_of_not_ready hcode hx hphase rfl
  · next hcode => exact exec_of_halted hcode _

/-- FINAL that completed leaves its context Finalized, hence not Ready (R155). -/
theorem exec_final_unready {s t : State} {c : CtxIdx} {a2 : Addr}
    (h : exec (.final c a2) s = .next t) (ht : t.code = 0) : t.Unready c := by
  obtain ⟨x, hx⟩ := exists_ctx?_of_checksOf (checks_of_completed h ht) (c := c) (by simp [checksOf])
  obtain ⟨-, rfl⟩ := exec_completed h ht
  obtain ⟨y, hy, hphase⟩ := effectOf_phase (i := .final c a2) hx
  exact ⟨y, hy, by simp [hphase, namedCtx, phaseAfter]⟩

end Sys2Proof.Machine

open Sys2Proof.Machine

/-- Settles O31: FINAL leaves its context not Ready, and there it stays until an INIT of it. -/
theorem exactlyOneFinalPerInit : Obligations.ExactlyOneFinalPerInit := by
  unfold Obligations.ExactlyOneFinalPerInit
  constructor
  · intro is s s₁ t c a2 a2' _ hfinal hs₁ his hrun
    exact exec_final_of_unready (runAll_unready hrun his (exec_final_unready hfinal hs₁)) a2'
  · intro is s t c a2 hc hphase his hrun
    obtain ⟨x, hx⟩ := State.exists_ctx? hc
    have hs : s.Unready c := ⟨x, hx, by simpa [hx] using hphase⟩
    exact exec_final_of_unready (runAll_unready hrun his hs) a2

end

/-! ## The one-shot commands and the sequence INIT, UPDATE, FINAL (R172, R177) -/

section

namespace Sys2Proof.Machine

open Sys2Proof.Claim

/-- The first check that fails is in the first part, or else in the second (R202). -/
theorem firstViolation_append (l r : List (Option Violation)) :
    firstViolation (l ++ r) = (firstViolation l).or (firstViolation r) := by
  induction l with
  | nil => rfl
  | cons chk l ih =>
    cases chk with
    | none => exact ih
    | some v => rfl

/-- The checks of a message range for a context that has taken no byte yet (R200). -/
def messageChecks (p : Params) (a0 a1 : Addr) : List (Option Violation) :=
  [checkNull a0 a1, checkData p a0 a1, checkLength 0 a1]

/-- BLOCK_CTX makes the check of INIT, then those of the message range, then that of the digest range
(R175). -/
theorem firstViolation_blockCtx (s : State) (c : CtxIdx) (a0 a1 a2 : Addr) :
    firstViolation (checksOf s (.blockCtx c a0 a1 a2)) =
      (firstViolation (checksOf s (.init c))).or
        ((firstViolation (messageChecks s.cfg a0 a1)).or
          (firstViolation [checkDigest s.cfg a2])) := by
  rw [← firstViolation_append, ← firstViolation_append]
  rfl

/-- A message whose length check passes has fewer than `2^64` bits (R145). -/
theorem length_of_checks {a1 : Addr} {checks : List (Option Violation)}
    (hok : firstViolation checks = none) (h : checkLength 0 a1 ∈ checks) :
    8 * a1.toNat < 2 ^ 64 := by
  simpa using checkLength_eq_none.1 (firstViolation_eq_none.1 hok _ h)

theorem messageChecks_passed {p : Params} {a0 a1 : Addr}
    (h : firstViolation (messageChecks p a0 a1) = none) :
    dataOk p a0 a1 ∧ 8 * a1.toNat < 2 ^ 64 := by
  have hall := firstViolation_eq_none.1 h
  exact ⟨dataOk_iff_checks.2 ⟨hall _ (by simp [messageChecks]), hall _ (by simp [messageChecks])⟩,
    length_of_checks h (by simp [messageChecks])⟩

/-- A context that has taken a message passes the two context checks. -/
theorem State.Streaming.contextChecks {s t : State} {c : CtxIdx} {m : List Byte}
    (ht : s.Streaming t c m) : checkContext t c = none ∧ checkReady t c = none := by
  obtain ⟨-, -, -, x, hx, habs⟩ := ht
  exact ⟨checkContext_eq_none.2 (State.lt_of_ctx? hx),
    checkReady_eq_none.2 (by rw [hx, Option.map_some, habs.phase])⟩

/-- After INIT only the message range is left for UPDATE to check. -/
theorem State.Streaming.updateChecks {s t : State} {c : CtxIdx} (ht : s.Streaming t c [])
    (a0 a1 : Addr) :
    firstViolation (checksOf t (.update c a0 a1)) = firstViolation (messageChecks s.cfg a0 a1) := by
  obtain ⟨hctx, hready⟩ := ht.contextChecks
  obtain ⟨hcfg, -, -, x, hx, habs⟩ := ht
  have hbits : t.bitsOf c = 0 := (State.bitsOf_some hx).trans habs.bitcnt
  simp only [checksOf, hctx, hready, hbits, hcfg, firstViolation_none, messageChecks]

/-- After an UPDATE only the digest range is left for FINAL to check. -/
theorem State.Streaming.finalChecks {s t : State} {c : CtxIdx} {m : List Byte}
    (ht : s.Streaming t c m) (a2 : Addr) :
    firstViolation (checksOf t (.final c a2)) = firstViolation [checkDigest s.cfg a2] := by
  obtain ⟨hctx, hready⟩ := ht.contextChecks
  simp only [checksOf, hctx, hready, ht.cfg, firstViolation_none]

/-- FINAL whose checks pass writes the digest of the message taken and leaves the context Finalized
(R150, R154, R155). -/
theorem exec_final_streaming {s t : State} {c : CtxIdx} {m : List Byte} {a2 : Addr}
    (ht : s.Streaming t c m) (hok : firstViolation (checksOf t (.final c a2)) = none) :
    ∃ u, exec (.final c a2) t = .next u ∧ u.code = 0 ∧
      u.mem = s.mem.writeBytes a2.toNat (sha256 m) ∧
      (u.ctx? c).map (·.phase) = some .finalized := by
  obtain ⟨-, hmem, hcode, x, hx, habs⟩ := ht
  have hctx := effectOf_ctx? (i := .final c a2) (c := c) rfl t
  rw [hx, Option.map_some] at hctx
  refine ⟨_, exec_of_checks hcode (firstViolation_eq_none.1 hok),
    (effectOf_control _ t).1.trans hcode, ?_, by rw [hctx]; rfl⟩
  rw [effectOf_final_mem hx, habs.finalDigest_eq, hmem]

/-- After a fault the commands that follow do nothing (R203). -/
theorem runAll_of_halted {s : State} (hcode : s.code ≠ 0) (is : List Instr) :
    runAll is s = .next s := by
  induction is with
  | nil => rfl
  | cons i is ih => rw [runAll_cons (exec_of_halted hcode i), ih]

/-- How a run of commands ends that reports the first violation found, and otherwise writes the digest
of the message and leaves the context Finalized. -/
def State.DigestRun (s t : State) (c : CtxIdx) (a0 a1 a2 : Addr) : Option Violation → Prop
  | some v => t.code = v.code.bits
  | none => t.code = 0 ∧ t.mem = s.mem.writeBytes a2.toNat (sha256 (hostBytes s.mem a0 a1)) ∧
      (t.ctx? c).map (·.phase) = some .finalized

/-- A command that faults ends the run with its fault. -/
theorem runAll_digestRun_of_violation {s t : State} {c : CtxIdx} {a0 a1 a2 : Addr} {i : Instr}
    {v : Violation} (hcode : t.code = 0) (hv : firstViolation (checksOf t i) = some v)
    (is : List Instr) : ∃ u, runAll (i :: is) t = .next u ∧ s.DigestRun u c a0 a1 a2 (some v) :=
  ⟨_, (runAll_cons (exec_faulted hcode hv) is).trans (runAll_of_halted v.code.bits_ne_zero is), rfl⟩

/-- INIT, UPDATE and FINAL in turn make the checks of BLOCK_CTX in their order, and write the digest
where all pass (R177). -/
theorem runAll_sequence {s : State} (hcode : s.code = 0) (c : CtxIdx) (a0 a1 a2 : Addr) :
    ∃ t, runAll [.init c, .update c a0 a1, .final c a2] s = .next t ∧
      s.DigestRun t c a0 a1 a2 (firstViolation (checksOf s (.blockCtx c a0 a1 a2))) := by
  rw [firstViolation_blockCtx]
  cases hinit : firstViolation (checksOf s (.init c)) with
  | some v => exact runAll_digestRun_of_violation hcode hinit _
  | none =>
    have hc := checkContext_eq_none.1 (firstViolation_eq_none.1 hinit _ (List.mem_singleton_self _))
    obtain ⟨t, hexec, ht⟩ := exec_init_streaming hcode hc
    rw [runAll_cons hexec, ← ht.updateChecks]
    cases hupdate : firstViolation (checksOf t (.update c a0 a1)) with
    | some v => exact runAll_digestRun_of_violation ht.code hupdate _
    | none =>
      obtain ⟨hdata, hlen⟩ := messageChecks_passed ((ht.updateChecks a0 a1).symm.trans hupdate)
      obtain ⟨u, hexec', hu⟩ := exec_update_streaming ht hdata (by simpa using hlen)
      rw [runAll_cons hexec', ← hu.finalChecks]
      cases hfinal : firstViolation (checksOf u (.final c a2)) with
      | some v => exact runAll_digestRun_of_violation hu.code hfinal _
      | none =>
        obtain ⟨t', hexec'', hend⟩ := exec_final_streaming hu hfinal
        exact ⟨t', runAll_cons hexec'' [], hend⟩

end Sys2Proof.Machine

open Sys2Proof.Machine

/-- Settles O35: both write the digest of the message at the same address. -/
theorem blockAgreesWithTheSequence : Obligations.BlockAgreesWithTheSequence := by
  unfold Obligations.BlockAgreesWithTheSequence
  intro s t t' c a0 a1 a2 hcode h h' ht ht'
  have hlen := length_of_checks (a1 := a1) (checks_of_completed h ht) (by simp [checksOf])
  obtain ⟨u, hu, hrun⟩ := runAll_sequence hcode c a0 a1 a2
  cases hu.symm.trans h'
  obtain ⟨-, rfl⟩ := exec_completed h ht
  cases hv : firstViolation (checksOf s (.blockCtx c a0 a1 a2)) with
  | some v =>
    rw [hv] at hrun
    exact absurd (hrun.symm.trans ht') v.code.bits_ne_zero
  | none =>
    rw [hv] at hrun
    obtain ⟨-, hmem, -⟩ := hrun
    exact (effectOf_block_mem s hlen a2).trans hmem.symm

/-- Settles O36: the first of the checks of BLOCK_CTX that fails is the fault of both, and where none
fails both write the digest and leave the context Finalized. -/
theorem blockCtxAgreesWithTheSequence : Obligations.BlockCtxAgreesWithTheSequence := by
  unfold Obligations.BlockCtxAgreesWithTheSequence
  intro s t t' c a0 a1 a2 hcode h h'
  obtain ⟨u, hu, hrun⟩ := runAll_sequence hcode c a0 a1 a2
  cases hu.symm.trans h'
  cases hv : firstViolation (checksOf s (.blockCtx c a0 a1 a2)) with
  | some v =>
    rw [hv] at hrun
    cases h.symm.trans (exec_faulted hcode hv)
    refine ⟨hrun.symm, ?_⟩
    split
    · next hzero => exact absurd hzero v.code.bits_ne_zero
    · exact ⟨rfl, rfl⟩
  | none =>
    rw [hv] at hrun
    obtain ⟨hcode', hmem, hphase⟩ := hrun
    obtain ⟨x, hx⟩ := exists_ctx?_of_checksOf hv (c := c) (by simp [checksOf])
    obtain ⟨y, hy, hyphase⟩ := effectOf_phase (i := .blockCtx c a0 a1 a2) hx
    cases h.symm.trans (exec_of_checks hcode (firstViolation_eq_none.1 hv))
    have ht : (effectOf (.blockCtx c a0 a1 a2) s).code = 0 := (effectOf_control _ s).1.trans hcode
    have hlen := length_of_checks (a1 := a1) hv (by simp [checksOf])
    rw [if_pos ht, effectOf_blockCtx_mem hx hlen, hmem, hphase, hy]
    exact ⟨ht.trans hcode'.symm, rfl, by simp [hyphase, Sys2Proof.Claim.namedCtx, phaseAfter]⟩

end

/-! # Proofs: commands on a halted core and the idle core (spec/60_exceptions.md R203, R204, R214) -/

section

namespace Sys2Proof.Machine

/-- A halted core steps over every record the host can issue, legal or not (R203). -/
theorem issue_of_halted {r : Record} {s : State} (hcode : s.code ≠ 0)
    (hw : r.wellFormed s.cfg.aw = true) : issue r s = .next s := by
  cases hd : decode r with
  | ok i => rw [issue_ok hw hd, exec_of_halted hcode]
  | error e => rw [issue_illegal hw hd, attempt_halted (s.halted_iff.2 hcode)]

end Sys2Proof.Machine

open Sys2Proof.Machine

/-- Settles O7: no command has an effect on a halted core, and the step only takes the event. -/
theorem haltedCoreExecutesNothing : Obligations.HaltedCoreExecutesNothing := by
  unfold Obligations.HaltedCoreExecutesNothing
  intro s hcode
  refine ⟨exec_of_halted hcode, fun r rest hhost hw => ?_⟩
  rw [step_event hhost]
  exact issue_of_halted (s := s.setHost rest) hcode hw

/-- Settles O11: without an event the step is the idle one. -/
theorem idleCoreKeepsAllState : Obligations.IdleCoreKeepsAllState := by
  unfold Obligations.IdleCoreKeepsAllState
  exact fun _ => step_idle

end

/-! # Proofs: the reset event (spec/70_reset_and_hazards.md R230) -/

section

namespace Sys2Proof.Machine

/-- The step on the reset event is the reset of the core, the event taken. -/
theorem step_reset {s : State} {rest : List HostEvent} (hhost : s.host = .reset :: rest) :
    step s = .next (s.setHost rest).coreReset :=
  step_event hhost

@[simp] theorem State.coreReset_halted (s : State) : s.coreReset.halted = false := rfl

end Sys2Proof.Machine

open Sys2Proof.Machine

/-- Settles O9: the step is the reset of the core, which keeps the number of contexts, leaves each
Uninitialized, and writes the other registers out. -/
theorem resetEventResetsTheCore : Obligations.ResetEventResetsTheCore := by
  unfold Obligations.ResetEventResetsTheCore
  intro s rest hhost
  have hcount : (s.setHost rest).coreReset.nctx = s.nctx := (s.setHost rest).coreReset_nctx
  exact ⟨_, step_reset hhost, hcount, fun _ => State.afterReset_phase, rfl, rfl, rfl, rfl,
    (s.setHost rest).coreReset_halted, rfl, rfl, rfl⟩

end
